-- ==== Sys2Proof/Word.lean ====
section
/-! DEFINITION. The words of the machine: bytes, 16-bit words, nibbles and the operand fields (spec/00_scope R4, R8, R10). -/

namespace Sys2Proof

/-- One memory cell or general register: 8 bits (R4). -/
abbrev Byte := BitVec 8

/-- An instruction word, `PC`, `I`, or a stack entry: 16 bits (R4). -/
abbrev Word := BitVec 16

/-- A quarter of an instruction word (R8). -/
abbrev Nibble := BitVec 4

/-- A register number as an instruction carries it, 0..15: always in range (R72). -/
abbrev Reg := BitVec 4

/-- The address field `nnn` (R10). -/
abbrev Addr12 := BitVec 12

/-- A key number, 0..15 by type (R37, R235). -/
abbrev Key := Fin 16

end Sys2Proof
end

