-- ==== Sys2Proof/Config.lean ====
section
/-! DEFINITION. The constants the source fixes (spec/00_scope R4), the parameter types of R5, and the free values (opaque, no body). -/

namespace Sys2Proof

/-- `MEM_SIZE` (R4, R50). -/
abbrev Config.memSize : Nat := 0x1000

/-- `PROG_BASE`: where `LoadROM` puts a program (R4, R51). -/
abbrev Config.progBase : Nat := 0x200

/-- A ROM of this many bytes or more is refused; `ROM_MAX_LEN` is one less (R4, R217). -/
abbrev Config.romLimit : Nat := 0xE00

/-- `FONT_LEN` (R4, R31). -/
abbrev Config.fontLen : Nat := 80

/-- `GLYPH_BYTES` (R4, R185). -/
abbrev Config.glyphBytes : Nat := 5

/-- `LORES_W`, `LORES_H`, `HIRES_W`, `HIRES_H` (R4, R35). -/
abbrev Config.loresW : Nat := 64
abbrev Config.loresH : Nat := 32
abbrev Config.hiresW : Nat := 128
abbrev Config.hiresH : Nat := 64

/-- The cells of the screen grid: `SCREEN_W_MAX * SCREEN_H_MAX` (R4, R34). -/
abbrev Config.screenCells : Nat := 8192

/-- The two values of the parameter `SYS_POLICY` (R5, R120, decision D2). -/
inductive SysPolicy where
  | nop
  | fault
  deriving DecidableEq, Repr

/-- The type of the parameter `FONT`: 80 bytes (R5, R31). -/
abbrev Font := Vector Byte Config.fontLen

/-- FREE VALUE (log 3). The byte that the n-th draw of a run gives to `RND` (R160, D29, U8): any byte, under no law. -/
opaque Config.randomByte : Nat → Byte

/-- FREE VALUE (log 4). Which of several keys down the n-th draw of a run takes (R172, D14, V3): an
index, reduced modulo the number of keys down, so that any of them may be taken. -/
opaque Config.keyChoice : Nat → Nat

/-- OPEN PARAMETER (log 10). `CLOCK_SPEED` less one: the clock speed is some positive number that no rule reads (R5, R278, U1, D32). -/
opaque Config.clockSpeedLessOne : Nat

/-- `CLOCK_SPEED`, instructions per second: positive, otherwise free (R5). -/
def Config.clockSpeed : Nat := Config.clockSpeedLessOne + 1

end Sys2Proof
end

