-- ==== Sys2Proof/Machine/Params.lean ====
section
/-! DEFINITION. The values this model gives the parameters of spec/00_scope R5: the spec's own defaults (logs 5, 6, 9); what uses a parameter takes it as an argument. -/

namespace Sys2Proof.Machine

/-- `FONT`: the default R31 gives the parameter, glyph 0 first (log 5; decision D23, G2). What it is used
for takes any font: `Memory.initialUnder`, `State.resetUnder`, `State.resetMachineUnder`. -/
def Params.font : Font := #v[
  0xF0, 0x90, 0x90, 0x90, 0xF0,   0x20, 0x60, 0x20, 0x20, 0x70,
  0xF0, 0x10, 0xF0, 0x80, 0xF0,   0xF0, 0x10, 0xF0, 0x10, 0xF0,
  0x90, 0x90, 0xF0, 0x10, 0x10,   0xF0, 0x80, 0xF0, 0x10, 0xF0,
  0xF0, 0x80, 0xF0, 0x90, 0xF0,   0xF0, 0x10, 0x20, 0x40, 0x40,
  0xF0, 0x90, 0xF0, 0x90, 0xF0,   0xF0, 0x90, 0xF0, 0x10, 0xF0,
  0xF0, 0x90, 0xF0, 0x90, 0x90,   0xE0, 0x90, 0xE0, 0x90, 0xE0,
  0xF0, 0x80, 0x80, 0x80, 0xF0,   0xE0, 0x90, 0x90, 0x90, 0xE0,
  0xF0, 0x80, 0xF0, 0x80, 0xF0,   0xF0, 0x80, 0xF0, 0x80, 0x80]

/-- `SYS_POLICY` (log 6; R120, decision D2). -/
def Params.sysPolicy : SysPolicy := .nop

/-- `DRW_VWRAP` (log 9; R163, decision D11). -/
def Params.drwVwrap : Bool := false

end Sys2Proof.Machine
end

