-- ==== Sys2Proof/Syntax.lean ====
section
/-! DEFINITION. The 35 instructions of spec/30_encoding R78, one constructor per row of opcode_table.json, in the table's order. -/

namespace Sys2Proof

/-- An instruction with the operand fields its pattern leaves open, the ignored ones of R82 among them. -/
inductive Instr where
  | sys (nnn : Addr12)
  | cls
  | ret
  | jp (nnn : Addr12)
  | call (nnn : Addr12)
  | seVxKk (x : Reg) (kk : Byte)
  | sneVxKk (x : Reg) (kk : Byte)
  | seVxVy (x y : Reg)
  | ldVxKk (x : Reg) (kk : Byte)
  | addVxKk (x : Reg) (kk : Byte)
  | ldVxVy (x y : Reg)
  | orVxVy (x y : Reg)
  | andVxVy (x y : Reg)
  | xorVxVy (x y : Reg)
  | addVxVy (x y : Reg)
  | subVxVy (x y : Reg)
  | shrVx (x y : Reg)
  | subnVxVy (x y : Reg)
  | shlVx (x y : Reg)
  | sneVxVy (x y : Reg)
  | ldINnn (nnn : Addr12)
  | jpV0Nnn (nnn : Addr12)
  | rndVxKk (x : Reg) (kk : Byte)
  | drwVxVyN (x y : Reg) (n : Nibble)
  | skpVx (x : Reg)
  | sknpVx (x : Reg)
  | ldVxDt (x : Reg)
  | ldVxK (x : Reg)
  | ldDtVx (x : Reg)
  | ldStVx (x : Reg)
  | addIVx (x : Reg)
  | ldFVx (x : Reg)
  | ldBVx (x : Reg)
  | ldMemVx (x : Reg)
  | ldVxMem (x : Reg)
  deriving DecidableEq, Repr

end Sys2Proof
end

