-- ==== Sys2Proof/WellFormed.lean ====
section
/-! DEFINITION. Which terms of `Instr` have a word: every one, but for `SYS` with a zero second nibble (spec/30_encoding R76, R92). -/

namespace Sys2Proof

/-- The only restriction the encoding puts on a field that its type does not: `SYS nnn` needs
`nnn[11:8] != 0`, since the words `0x00kk` never resolve to `SYS` (R76, R92). -/
def Instr.wf : Instr → Bool
  | .sys nnn => nnn.extractLsb' 8 4 != 0
  | .cls | .ret | .jp _ | .call _ => true
  | .seVxKk _ _ | .sneVxKk _ _ | .seVxVy _ _ | .ldVxKk _ _ | .addVxKk _ _ => true
  | .ldVxVy _ _ | .orVxVy _ _ | .andVxVy _ _ | .xorVxVy _ _ | .addVxVy _ _ => true
  | .subVxVy _ _ | .shrVx _ _ | .subnVxVy _ _ | .shlVx _ _ | .sneVxVy _ _ => true
  | .ldINnn _ | .jpV0Nnn _ | .rndVxKk _ _ | .drwVxVyN _ _ _ | .skpVx _ | .sknpVx _ => true
  | .ldVxDt _ | .ldVxK _ | .ldDtVx _ | .ldStVx _ | .addIVx _ | .ldFVx _ | .ldBVx _ => true
  | .ldMemVx _ | .ldVxMem _ => true

end Sys2Proof
end

