-- ==== Sys2Proof/Decode.lean ====
section
/-! DEFINITION. The codec, the decoder, the dispatch tree and the encoder (spec/30_encoding R70 to R80, R92). -/

namespace Sys2Proof

/-! ## The codec (R8, R10, R71) -/

/-- `n0 = w[15:12]`. -/
def nib0 (w : Word) : Nibble := w.extractLsb' 12 4
/-- `n1 = w[11:8]`. -/
def nib1 (w : Word) : Nibble := w.extractLsb' 8 4
/-- `n2 = w[7:4]`. -/
def nib2 (w : Word) : Nibble := w.extractLsb' 4 4
/-- `n3 = w[3:0]`. -/
def nib3 (w : Word) : Nibble := w.extractLsb' 0 4
/-- `nnn = w[11:0]`. -/
def fieldNnn (w : Word) : Addr12 := w.extractLsb' 0 12
/-- `x = w[11:8]`, the same bits as `n1`. -/
def fieldX (w : Word) : Reg := nib1 w
/-- `y = w[7:4]`, the same bits as `n2`. -/
def fieldY (w : Word) : Reg := nib2 w
/-- `kk = w[7:0]`. -/
def fieldKk (w : Word) : Byte := w.extractLsb' 0 8
/-- `n = w[3:0]`, the same bits as `n3`. -/
def fieldN (w : Word) : Nibble := nib3 w

/-- A word from its two bytes, the byte at the lower address first: it is bits 15..8 (R53). -/
def wordOfBytes (hi lo : Byte) : Word := hi ++ lo

/-- The byte at the lower address of a stored word (R53). -/
def hiByte (w : Word) : Byte := w.extractLsb' 8 8

/-- The byte at the higher address of a stored word (R53). -/
def loByte (w : Word) : Byte := w.extractLsb' 0 8

/-! ## The decoder (R75, R76, R78, R80), as a choice by nibbles -/

/-- First nibble 0: an exact second nibble 0 leads to `CLS` and `RET` only; any other is `SYS` (R76). -/
def decode0 (w : Word) : Option Instr :=
  if nib1 w = 0x0 then
    if nib2 w = 0xE then
      if nib3 w = 0x0 then some .cls
      else if nib3 w = 0xE then some .ret
      else none
    else none
  else some (.sys (fieldNnn w))

/-- First nibble 8: the operation is the trailing nibble (R74, R79). -/
def decode8 (w : Word) : Option Instr :=
  match nib3 w with
  | 0x0#4 => some (.ldVxVy (fieldX w) (fieldY w))
  | 0x1#4 => some (.orVxVy (fieldX w) (fieldY w))
  | 0x2#4 => some (.andVxVy (fieldX w) (fieldY w))
  | 0x3#4 => some (.xorVxVy (fieldX w) (fieldY w))
  | 0x4#4 => some (.addVxVy (fieldX w) (fieldY w))
  | 0x5#4 => some (.subVxVy (fieldX w) (fieldY w))
  | 0x6#4 => some (.shrVx (fieldX w) (fieldY w))
  | 0x7#4 => some (.subnVxVy (fieldX w) (fieldY w))
  | 0xE#4 => some (.shlVx (fieldX w) (fieldY w))
  | _ => none

/-- First nibble E: the two key skips (R74). -/
def decodeE (w : Word) : Option Instr :=
  match fieldKk w with
  | 0x9E#8 => some (.skpVx (fieldX w))
  | 0xA1#8 => some (.sknpVx (fieldX w))
  | _ => none

/-- First nibble F: timers, key wait, index register and memory transfers (R74). -/
def decodeF (w : Word) : Option Instr :=
  match fieldKk w with
  | 0x07#8 => some (.ldVxDt (fieldX w))
  | 0x0A#8 => some (.ldVxK (fieldX w))
  | 0x15#8 => some (.ldDtVx (fieldX w))
  | 0x18#8 => some (.ldStVx (fieldX w))
  | 0x1E#8 => some (.addIVx (fieldX w))
  | 0x29#8 => some (.ldFVx (fieldX w))
  | 0x33#8 => some (.ldBVx (fieldX w))
  | 0x55#8 => some (.ldMemVx (fieldX w))
  | 0x65#8 => some (.ldVxMem (fieldX w))
  | _ => none

/-- The instruction of a word, or `none` where the lookup returns `NoHandler` (R75, R77, R80). -/
def decodeWord (w : Word) : Option Instr :=
  match nib0 w with
  | 0x0#4 => decode0 w
  | 0x1#4 => some (.jp (fieldNnn w))
  | 0x2#4 => some (.call (fieldNnn w))
  | 0x3#4 => some (.seVxKk (fieldX w) (fieldKk w))
  | 0x4#4 => some (.sneVxKk (fieldX w) (fieldKk w))
  | 0x5#4 => if nib3 w = 0x0 then some (.seVxVy (fieldX w) (fieldY w)) else none
  | 0x6#4 => some (.ldVxKk (fieldX w) (fieldKk w))
  | 0x7#4 => some (.addVxKk (fieldX w) (fieldKk w))
  | 0x8#4 => decode8 w
  | 0x9#4 => if nib3 w = 0x0 then some (.sneVxVy (fieldX w) (fieldY w)) else none
  | 0xA#4 => some (.ldINnn (fieldNnn w))
  | 0xB#4 => some (.jpV0Nnn (fieldNnn w))
  | 0xC#4 => some (.rndVxKk (fieldX w) (fieldKk w))
  | 0xD#4 => some (.drwVxVyN (fieldX w) (fieldY w) (fieldN w))
  | 0xE#4 => decodeE w
  | _ => decodeF w

/-- Why a run of bytes is no instruction. -/
inductive DecodeError where
  /-- The dispatch lookup returns `NoHandler` for the word (R75, R80). -/
  | noHandler (w : Word)
  /-- Fewer than the two bytes that every instruction has (R70). -/
  | truncated
  deriving DecidableEq, Repr

/-- The instruction at the head of a run of bytes, with the bytes after it (R53, R70). -/
def decode : List Byte → Except DecodeError (Instr × List Byte)
  | hi :: lo :: rest =>
    match decodeWord (wordOfBytes hi lo) with
    | some i => .ok (i, rest)
    | none => .error (.noHandler (wordOfBytes hi lo))
  | _ => .error .truncated

/-! ## The opcode map (R78) and the dispatch tree (R73 to R75) -/

/-- One slot of an encoding pattern: a fixed nibble or a wildcard (R73). -/
inductive Slot where
  | exact (v : Nibble)
  | wild
  deriving DecidableEq, Repr

/-- One row of the opcode map: the four slots, the mask and match that select it, and the
instruction its handler reads from a word (R73, R78). -/
structure OpcodeRow where
  p0 : Slot
  p1 : Slot
  p2 : Slot
  p3 : Slot
  mask : Word
  value : Word
  build : Word → Instr

/-- Rows 1 to 10 of R78. -/
def opcodeRowsA : List OpcodeRow := [
  ⟨.exact 0x0, .wild, .wild, .wild, 0xF000, 0x0000, fun w => .sys (fieldNnn w)⟩,
  ⟨.exact 0x0, .exact 0x0, .exact 0xE, .exact 0x0, 0xFFFF, 0x00E0, fun _ => .cls⟩,
  ⟨.exact 0x0, .exact 0x0, .exact 0xE, .exact 0xE, 0xFFFF, 0x00EE, fun _ => .ret⟩,
  ⟨.exact 0x1, .wild, .wild, .wild, 0xF000, 0x1000, fun w => .jp (fieldNnn w)⟩,
  ⟨.exact 0x2, .wild, .wild, .wild, 0xF000, 0x2000, fun w => .call (fieldNnn w)⟩,
  ⟨.exact 0x3, .wild, .wild, .wild, 0xF000, 0x3000, fun w => .seVxKk (fieldX w) (fieldKk w)⟩,
  ⟨.exact 0x4, .wild, .wild, .wild, 0xF000, 0x4000, fun w => .sneVxKk (fieldX w) (fieldKk w)⟩,
  ⟨.exact 0x5, .wild, .wild, .exact 0x0, 0xF00F, 0x5000, fun w => .seVxVy (fieldX w) (fieldY w)⟩,
  ⟨.exact 0x6, .wild, .wild, .wild, 0xF000, 0x6000, fun w => .ldVxKk (fieldX w) (fieldKk w)⟩,
  ⟨.exact 0x7, .wild, .wild, .wild, 0xF000, 0x7000, fun w => .addVxKk (fieldX w) (fieldKk w)⟩]

/-- Rows 11 to 20 of R78. -/
def opcodeRowsB : List OpcodeRow := [
  ⟨.exact 0x8, .wild, .wild, .exact 0x0, 0xF00F, 0x8000, fun w => .ldVxVy (fieldX w) (fieldY w)⟩,
  ⟨.exact 0x8, .wild, .wild, .exact 0x1, 0xF00F, 0x8001, fun w => .orVxVy (fieldX w) (fieldY w)⟩,
  ⟨.exact 0x8, .wild, .wild, .exact 0x2, 0xF00F, 0x8002, fun w => .andVxVy (fieldX w) (fieldY w)⟩,
  ⟨.exact 0x8, .wild, .wild, .exact 0x3, 0xF00F, 0x8003, fun w => .xorVxVy (fieldX w) (fieldY w)⟩,
  ⟨.exact 0x8, .wild, .wild, .exact 0x4, 0xF00F, 0x8004, fun w => .addVxVy (fieldX w) (fieldY w)⟩,
  ⟨.exact 0x8, .wild, .wild, .exact 0x5, 0xF00F, 0x8005, fun w => .subVxVy (fieldX w) (fieldY w)⟩,
  ⟨.exact 0x8, .wild, .wild, .exact 0x6, 0xF00F, 0x8006, fun w => .shrVx (fieldX w) (fieldY w)⟩,
  ⟨.exact 0x8, .wild, .wild, .exact 0x7, 0xF00F, 0x8007, fun w => .subnVxVy (fieldX w) (fieldY w)⟩,
  ⟨.exact 0x8, .wild, .wild, .exact 0xE, 0xF00F, 0x800E, fun w => .shlVx (fieldX w) (fieldY w)⟩,
  ⟨.exact 0x9, .wild, .wild, .exact 0x0, 0xF00F, 0x9000, fun w => .sneVxVy (fieldX w) (fieldY w)⟩]

/-- Rows 21 to 35 of R78. -/
def opcodeRowsC : List OpcodeRow := [
  ⟨.exact 0xA, .wild, .wild, .wild, 0xF000, 0xA000, fun w => .ldINnn (fieldNnn w)⟩,
  ⟨.exact 0xB, .wild, .wild, .wild, 0xF000, 0xB000, fun w => .jpV0Nnn (fieldNnn w)⟩,
  ⟨.exact 0xC, .wild, .wild, .wild, 0xF000, 0xC000, fun w => .rndVxKk (fieldX w) (fieldKk w)⟩,
  ⟨.exact 0xD, .wild, .wild, .wild, 0xF000, 0xD000,
    fun w => .drwVxVyN (fieldX w) (fieldY w) (fieldN w)⟩,
  ⟨.exact 0xE, .wild, .exact 0x9, .exact 0xE, 0xF0FF, 0xE09E, fun w => .skpVx (fieldX w)⟩,
  ⟨.exact 0xE, .wild, .exact 0xA, .exact 0x1, 0xF0FF, 0xE0A1, fun w => .sknpVx (fieldX w)⟩,
  ⟨.exact 0xF, .wild, .exact 0x0, .exact 0x7, 0xF0FF, 0xF007, fun w => .ldVxDt (fieldX w)⟩,
  ⟨.exact 0xF, .wild, .exact 0x0, .exact 0xA, 0xF0FF, 0xF00A, fun w => .ldVxK (fieldX w)⟩,
  ⟨.exact 0xF, .wild, .exact 0x1, .exact 0x5, 0xF0FF, 0xF015, fun w => .ldDtVx (fieldX w)⟩,
  ⟨.exact 0xF, .wild, .exact 0x1, .exact 0x8, 0xF0FF, 0xF018, fun w => .ldStVx (fieldX w)⟩,
  ⟨.exact 0xF, .wild, .exact 0x1, .exact 0xE, 0xF0FF, 0xF01E, fun w => .addIVx (fieldX w)⟩,
  ⟨.exact 0xF, .wild, .exact 0x2, .exact 0x9, 0xF0FF, 0xF029, fun w => .ldFVx (fieldX w)⟩,
  ⟨.exact 0xF, .wild, .exact 0x3, .exact 0x3, 0xF0FF, 0xF033, fun w => .ldBVx (fieldX w)⟩,
  ⟨.exact 0xF, .wild, .exact 0x5, .exact 0x5, 0xF0FF, 0xF055, fun w => .ldMemVx (fieldX w)⟩,
  ⟨.exact 0xF, .wild, .exact 0x6, .exact 0x5, 0xF0FF, 0xF065, fun w => .ldVxMem (fieldX w)⟩]

/-- The opcode map of R78: 35 rows, in the table's order. -/
def opcodeRows : List OpcodeRow := opcodeRowsA ++ opcodeRowsB ++ opcodeRowsC

/-- The mask/match decoder of R77: a row selects a word when `w & mask = match`, and the `SYS` row
(the one with mask F000 and match 0000) only when the second nibble is not 0. -/
def OpcodeRow.selects (r : OpcodeRow) (w : Word) : Bool :=
  (w &&& r.mask == r.value) && !(r.mask == 0xF000 && r.value == 0x0000 && nib1 w == 0)

/-- One level of the tree: entries keyed by a nibble or by the wildcard (R74). -/
abbrev Level (α : Type) := List (Slot × α)

/-- The four-level tree (R74). -/
abbrev DispatchTree := Level (Level (Level (Level (Word → Instr))))

/-- The entry under one key of a level. -/
def Level.find {α : Type} (k : Slot) : Level α → Option α
  | [] => none
  | (j, a) :: rest => if j = k then some a else Level.find k rest

/-- Changes the entry under one key, which is made from `new` where there is none yet (R74). -/
def Level.update {α : Type} (k : Slot) (new : α) (f : α → α) : Level α → Level α
  | [] => [(k, f new)]
  | (j, a) :: rest => if j = k then (j, f a) :: rest else (j, a) :: Level.update k new f rest

/-- Registers one row: makes the missing nodes on its path and puts its handler at the end (R74). -/
def DispatchTree.register (t : DispatchTree) (r : OpcodeRow) : DispatchTree :=
  Level.update r.p0 [] (Level.update r.p1 [] (Level.update r.p2 []
    (Level.update r.p3 r.build fun _ => r.build))) t

/-- The tree the 35 patterns build (R74). -/
def dispatchTree : DispatchTree := opcodeRows.foldl DispatchTree.register []

/-- One level of the walk: the exact entry if there is one, else the wildcard's, else failure (R75). -/
def Level.descend {α : Type} (l : Level α) (v : Nibble) : Option α :=
  match Level.find (.exact v) l with
  | some a => some a
  | none => Level.find .wild l

/-- The lookup of R75: four descents, never going back to a wildcard once an exact entry is taken. -/
def DispatchTree.lookup (t : DispatchTree) (w : Word) : Option (Word → Instr) :=
  match Level.descend t (nib0 w) with
  | none => none
  | some l1 =>
    match Level.descend l1 (nib1 w) with
    | none => none
    | some l2 =>
      match Level.descend l2 (nib2 w) with
      | none => none
      | some l3 => Level.descend l3 (nib3 w)

/-- What the dispatch tree makes of a word: the handler found, given the operand fields (R75, R104). -/
def treeDecode (w : Word) : Option Instr := (dispatchTree.lookup w).map fun build => build w

/-! ## The encoder (R92) -/

/-- The word of an instruction: its pattern's fixed nibbles with the operand fields in place (R78, R92). -/
def encode : Instr → Word
  | .sys nnn => 0x0#4 ++ nnn
  | .cls => 0x00E0
  | .ret => 0x00EE
  | .jp nnn => 0x1#4 ++ nnn
  | .call nnn => 0x2#4 ++ nnn
  | .seVxKk x kk => 0x3#4 ++ x ++ kk
  | .sneVxKk x kk => 0x4#4 ++ x ++ kk
  | .seVxVy x y => 0x5#4 ++ x ++ y ++ 0x0#4
  | .ldVxKk x kk => 0x6#4 ++ x ++ kk
  | .addVxKk x kk => 0x7#4 ++ x ++ kk
  | .ldVxVy x y => 0x8#4 ++ x ++ y ++ 0x0#4
  | .orVxVy x y => 0x8#4 ++ x ++ y ++ 0x1#4
  | .andVxVy x y => 0x8#4 ++ x ++ y ++ 0x2#4
  | .xorVxVy x y => 0x8#4 ++ x ++ y ++ 0x3#4
  | .addVxVy x y => 0x8#4 ++ x ++ y ++ 0x4#4
  | .subVxVy x y => 0x8#4 ++ x ++ y ++ 0x5#4
  | .shrVx x y => 0x8#4 ++ x ++ y ++ 0x6#4
  | .subnVxVy x y => 0x8#4 ++ x ++ y ++ 0x7#4
  | .shlVx x y => 0x8#4 ++ x ++ y ++ 0xE#4
  | .sneVxVy x y => 0x9#4 ++ x ++ y ++ 0x0#4
  | .ldINnn nnn => 0xA#4 ++ nnn
  | .jpV0Nnn nnn => 0xB#4 ++ nnn
  | .rndVxKk x kk => 0xC#4 ++ x ++ kk
  | .drwVxVyN x y n => 0xD#4 ++ x ++ y ++ n
  | .skpVx x => 0xE#4 ++ x ++ 0x9E#8
  | .sknpVx x => 0xE#4 ++ x ++ 0xA1#8
  | .ldVxDt x => 0xF#4 ++ x ++ 0x07#8
  | .ldVxK x => 0xF#4 ++ x ++ 0x0A#8
  | .ldDtVx x => 0xF#4 ++ x ++ 0x15#8
  | .ldStVx x => 0xF#4 ++ x ++ 0x18#8
  | .addIVx x => 0xF#4 ++ x ++ 0x1E#8
  | .ldFVx x => 0xF#4 ++ x ++ 0x29#8
  | .ldBVx x => 0xF#4 ++ x ++ 0x33#8
  | .ldMemVx x => 0xF#4 ++ x ++ 0x55#8
  | .ldVxMem x => 0xF#4 ++ x ++ 0x65#8

/-- The bytes of an instruction as they lie in memory, the high byte first (R53). -/
def encodeBytes (i : Instr) : List Byte := [hiByte (encode i), loByte (encode i)]

/-! ## The opcode table's numbering -/

/-- The word that `nbits` table bits `w` stand for: bit 0 of the table is bit 0 of the one 16-bit
word every instruction is (R8, R70); bits from `nbits` up are 0. -/
def tableWord (nbits w : Nat) : Word := BitVec.ofNat 16 (w % 2 ^ nbits)

/-- The instruction the decoder reads from the bytes of a table word, laid out as the memory holds
them (R53). -/
def decodeTableWord (nbits w : Nat) : Option Instr :=
  match decode [hiByte (tableWord nbits w), loByte (tableWord nbits w)] with
  | .ok (i, _) => some i
  | .error _ => none

end Sys2Proof
end

