-- ==== Sys2Proof/Machine/State.lean ====
section
/-! DEFINITION. The state of the machine (spec/10_state) and its value after reset (R44, R260). -/

namespace Sys2Proof.Machine

/-- The five fatal conditions, with the extra datum R201 records for two of them. -/
inductive Cause where
  | unknownOpcode
  | stackOverflow
  | stackUnderflow
  /-- With the lowest offending address (R57, R201). -/
  | addressOutOfRange (addr : Nat)
  /-- With the value of `Vx` (R201). -/
  | keyIndexOutOfRange (key : Byte)
  deriving DecidableEq, Repr

/-- What `halt` records: the cause, the `PC` of the faulting instruction and its word (R42, R205). -/
structure HaltRecord where
  cause : Cause
  addr : Word
  word : Word
  deriving DecidableEq, Repr

/-- R40. -/
inductive RunState where
  | paused
  | running
  deriving DecidableEq, Repr

/-- R41. -/
inductive WaitState where
  | ready
  | awaitingKey (x : Reg)
  deriving DecidableEq, Repr

/-- The control messages (R2, R214 to R218). -/
inductive Message where
  | reset
  | loadROM (bytes : List Byte)
  | setRunning
  | setPaused
  deriving DecidableEq, Repr

/-- What a processed message reports to the host (R219). -/
inductive Report where
  | success
  | romTooLarge
  deriving DecidableEq, Repr

/-- The transitions of the agents other than the stepper (R212): the timer engine, the keypad, the
host sending a message, the message drain. -/
inductive OutsideEvent where
  | tick60
  | keyDown (k : Key)
  | keyUp (k : Key)
  | send (m : Message)
  | drain
  deriving DecidableEq, Repr

/-- One transition of one agent: a `step_tick`, or an outside event (R212, R231). -/
inductive Event where
  | stepTick
  | outside (e : OutsideEvent)
  deriving DecidableEq, Repr

/-- Sparse memory: address and byte, addresses strictly rising, no entry equal to the reset contents. -/
abbrev Memory := List Host.Cell

/-- Sparse screen: the numbers of the lit cells, strictly rising (R34). -/
abbrev Screen := List Nat

/-- The model's own stops. The spec's fatal conditions are not among them: they are next states. -/
inductive Fault where
  /-- Raised by `CALL` and `RET` when `SP` is above 15, where the spec has no entry `stack[SP]` (R27).
  No run reaches such a state. SAFE: the model stops where the spec gives no meaning (log 7). -/
  | stackPointerOutOfRange
  deriving DecidableEq, Repr

/-- Instructions without a meaning. -/
inductive Refusal where
  /-- Raised by exec's arm of an instruction that has no meaning yet; no arm does. SAFE: it stops. -/
  | notModelled (mnemonic : String)
  deriving DecidableEq, Repr

/-- Everything the spec gives the machine (spec/10_state), and three fields of the model's own. -/
structure State where
  /-- `V0..VF` (R20). -/
  V : Vector Byte 16
  /-- The index register, all 16 bits kept (R26). -/
  I : Word
  /-- The program counter (R23). -/
  PC : Word
  /-- The stack pointer, valid 0..15 (R27). -/
  SP : Byte
  /-- The return stack (R28). -/
  stack : Vector Word 16
  /-- The delay timer (R29). -/
  DT : Byte
  /-- The sound timer (R29). -/
  ST : Byte
  /-- The 4096 bytes (R30, R50). -/
  memory : Memory
  /-- The 8192 cells (R34). -/
  screen : Screen
  /-- The screen mode (R35). -/
  hires : Bool
  /-- The 16 key flags (R37). -/
  keysDown : Vector Bool 16
  /-- The key last pressed and not released since (R38). -/
  lastKey : Option Key
  /-- Paused or running (R40). -/
  runState : RunState
  /-- The key wait (R41). -/
  wait : WaitState
  /-- The halted condition (R42). -/
  halt : Option HaltRecord
  /-- Control messages sent and not yet drained, oldest first (R43). -/
  msgQueue : List Message
  /-- MODEL'S OWN (log 1): which agents move next, oldest first; when it is empty, a `step_tick`. -/
  schedule : List Event
  /-- MODEL'S OWN (logs 3, 4): how many free values were drawn. -/
  draws : Nat
  /-- MODEL'S OWN (log 8): the reports given so far, oldest first (R219). -/
  reports : List Report
  deriving DecidableEq, Repr

/-- What an instruction or a step answers. -/
abbrev Result := Host.Outcome State Fault Refusal

/-- The machine as constructed (R44, R260): nothing listed in memory, so that it reads as FONT and
zeros; paused; no message queued. -/
def State.reset : State where
  V := Vector.replicate 16 0
  I := 0
  PC := 0x200
  SP := 0
  stack := Vector.replicate 16 0
  DT := 0
  ST := 0
  memory := []
  screen := []
  hires := false
  keysDown := Vector.replicate 16 false
  lastKey := none
  runState := .paused
  wait := .ready
  halt := none
  msgQueue := []
  schedule := []
  draws := 0
  reports := []

end Sys2Proof.Machine
end

