-- ==== Sys2Proof/Machine/Memory.lean ====
section
/-! DEFINITION. The memory: reading, writing, bounds and canonical form (spec/20_memory R50, R53 to R58). -/

namespace Sys2Proof.Machine

/-- The contents of memory after reset under a given `FONT`: the font from 0 on, 0 above it (R30, R31, R44). -/
def Memory.initialUnder (font : Font) (a : Nat) : Byte := (font[a]?).getD 0

/-- What an address that is not listed reads as: the contents after reset under the model's `FONT` (log 15). -/
def Memory.initial (a : Nat) : Byte := Memory.initialUnder Params.font a

/-- The byte at an address. -/
def Memory.read : Memory → Nat → Byte
  | [], a => Memory.initial a
  | (b, v) :: rest, a => if b = a then v else Memory.read rest a

/-- Removes an address's entry. -/
def Memory.erase (m : Memory) (a : Nat) : Memory := m.filter fun c => c.1 != a

/-- Puts an entry before the first one with a larger address. -/
def Memory.insert (a : Nat) (v : Byte) : Memory → Memory
  | [] => [(a, v)]
  | (b, u) :: rest => if a < b then (a, v) :: (b, u) :: rest else (b, u) :: Memory.insert a v rest

/-- Stores one byte; writing the reset contents removes the entry. -/
def Memory.write (m : Memory) (a : Nat) (v : Byte) : Memory :=
  if v = Memory.initial a then Memory.erase m a else Memory.insert a v (Memory.erase m a)

/-- The memory that holds the given bytes from an address on and the reset contents elsewhere. -/
def Memory.ofBytes : Nat → List Byte → Memory
  | _, [] => []
  | a, b :: bs =>
    if b = Memory.initial a then Memory.ofBytes (a + 1) bs else (a, b) :: Memory.ofBytes (a + 1) bs

/-- The canonical form from an address on: rising, below 4096, no entry equal to the reset contents. -/
def Memory.wfFrom : Nat → Memory → Bool
  | _, [] => true
  | lo, (a, v) :: rest =>
    decide (lo ≤ a) && decide (a < Config.memSize) && (v != Memory.initial a) &&
      Memory.wfFrom (a + 1) rest

/-- The canonical form. -/
def Memory.wf (m : Memory) : Bool := Memory.wfFrom 0 m

/-- The `n` bytes at `a`, `a + 1`, ... (R9, R54). -/
def Memory.readBytes (m : Memory) (a n : Nat) : List Byte :=
  (List.range n).map fun k => Memory.read m (a + k)

/-- Stores bytes at `a`, `a + 1`, ... in ascending order (R9, R54). -/
def Memory.writeBytes (m : Memory) (a : Nat) : List Byte → Memory
  | [] => m
  | b :: bs => Memory.writeBytes (Memory.write m a b) (a + 1) bs

/-- The lowest address of an `n`-byte access at `a` that lies above 0xFFF, if there is one; an access
of no bytes has none (R57). -/
def Memory.offending (a n : Nat) : Option Nat :=
  if 1 ≤ n ∧ Config.memSize < a + n then some (max a Config.memSize) else none

end Sys2Proof.Machine
end

