-- ==== Sys2Proof/Machine/Screen.lean ====
section
/-! DEFINITION. The screen grid and what a sprite does to it (spec/10_state R34 to R36, spec/44_random_display R162, R163). -/

namespace Sys2Proof.Machine

/-- `screen[c]` (R34). -/
def Screen.lit (scr : Screen) (c : Nat) : Bool := scr.contains c

/-- Puts a cell number before the first larger one. -/
def Screen.insert (c : Nat) : Screen → Screen
  | [] => [c]
  | d :: rest => if c < d then c :: d :: rest else d :: Screen.insert c rest

/-- `screen[c] <- not screen[c]` (R162). -/
def Screen.toggle (scr : Screen) (c : Nat) : Screen :=
  if Screen.lit scr c then scr.filter fun d => d != c else Screen.insert c scr

/-- The canonical form from a cell on: strictly rising, below `hi`. -/
def Screen.wfFrom (hi : Nat) : Nat → Screen → Bool
  | _, [] => true
  | lo, c :: rest => decide (lo ≤ c) && decide (c < hi) && Screen.wfFrom hi (c + 1) rest

/-- The canonical form: strictly rising cell numbers of the 8192-cell grid (R34). -/
def Screen.wf (scr : Screen) : Bool := Screen.wfFrom Config.screenCells 0 scr

/-- `W` (R35). -/
def screenWidth (hires : Bool) : Nat := if hires then Config.hiresW else Config.loresW

/-- `H` (R35). -/
def screenHeight (hires : Bool) : Nat := if hires then Config.hiresH else Config.loresH

/-- The cell of column `cx` and row `cy` (R36). -/
def cellAt (w cx cy : Nat) : Nat := w * cy + cx

/-- The row a sprite row at `cy` is drawn in: itself, or, below the bottom edge, none when rows are
clipped and the row modulo `H` when they wrap (R162, R163 (b)). -/
def spriteRow (h : Nat) (vwrap : Bool) (cy : Nat) : Option Nat :=
  if cy < h then some cy else if vwrap then some (cy % h) else none

/-- The cells one sprite byte names in row `cy` from column `x0`: bit 7 is the leftmost pixel and
columns wrap (R162, R163 (a)). -/
def spriteByteCells (w x0 cy : Nat) (b : Byte) : List Nat :=
  (List.range 8).filterMap fun c =>
    if b.getLsbD (7 - c) then some (cellAt w ((x0 + c) % w) cy) else none

/-- The cells a sprite's bytes name, row by row from row `cy` (R162). -/
def spriteCells (w h : Nat) (vwrap : Bool) (x0 : Nat) : Nat → List Byte → List Nat
  | _, [] => []
  | cy, b :: bs =>
    (match spriteRow h vwrap cy with
      | some row => spriteByteCells w x0 row b
      | none => []) ++ spriteCells w h vwrap x0 (cy + 1) bs

/-- Draws the cells in order: each is toggled, and a lit one about to be cleared is a collision (R162). -/
def drawCells : List Nat → Screen × Bool → Screen × Bool
  | [], acc => acc
  | c :: cs, (scr, hit) => drawCells cs (Screen.toggle scr c, hit || Screen.lit scr c)

end Sys2Proof.Machine
end

