-- ==== Sys2Proof/Machine/Ops.lean ====
section
/-! DEFINITION. The named operations on the state: registers, PC, stack, memory, and taking a fatal condition (spec/10_state, 20_memory, 40_step_cycle, 60_exceptions). -/

namespace Sys2Proof.Machine

/-! ## Registers (R20, R26, R27, R29) -/

/-- `V[x]`. -/
def State.v (s : State) (x : Reg) : Byte := s.V[x.toNat]

/-- `V[x] <- b`. -/
def State.setV (s : State) (x : Reg) (b : Byte) : State := { s with V := s.V.set x.toNat b }

/-- `I <- v`. -/
def State.setI (s : State) (v : Word) : State := { s with I := v }

/-- `DT <- v`. -/
def State.setDT (s : State) (v : Byte) : State := { s with DT := v }

/-- `ST <- v`. -/
def State.setST (s : State) (v : Byte) : State := { s with ST := v }

/-- `screen <- scr`. -/
def State.setScreen (s : State) (scr : Screen) : State := { s with screen := scr }

/-- `memory <- m`. -/
def State.setMemory (s : State) (m : Memory) : State := { s with memory := m }

/-- `wait <- w`. -/
def State.setWait (s : State) (w : WaitState) : State := { s with wait := w }

/-- One more free value has been drawn (logs 3, 4). -/
def State.countDraw (s : State) : State := { s with draws := s.draws + 1 }

/-! ## The program counter (R105, R106) -/

/-- Phase 4 of a handler that did not write `PC`: `PC <- P + 2`. -/
def State.advance (s : State) : State := { s with PC := s.PC + 2 }

/-- A handler's own write of `PC` (`pc_written`), which phase 4 keeps. -/
def State.jump (s : State) (target : Word) : State := { s with PC := target }

/-- A skip: `PC <- P + 4` when the condition holds, otherwise phase 4's `P + 2`. -/
def State.skipIf (s : State) (cond : Bool) : State := if cond then s.jump (s.PC + 4) else s.advance

/-! ## The return stack (R27, R28) -/

/-- `SP <- SP + 1`, then `stack[SP] <- ra` (R123). -/
def State.push (s : State) (ra : Word) : State :=
  { s with SP := s.SP + 1, stack := s.stack.setIfInBounds (s.SP + 1).toNat ra }

/-- `SP <- SP - 1`; the entry is not cleared (R121). -/
def State.pop (s : State) : State := { s with SP := s.SP - 1 }

/-! ## Memory (R9, R57, R58) -/

/-- `MemRead(a, n)`: the bytes, or the lowest offending address. -/
def State.memRead (s : State) (a n : Nat) : Except Nat (List Byte) :=
  match Memory.offending a n with
  | some bad => .error bad
  | none => .ok (Memory.readBytes s.memory a n)

/-- `MemWrite(a, n, bs)`, `n` being the number of bytes: the state with all of them stored, or the
lowest offending address and nothing stored. -/
def State.memWrite (s : State) (a : Nat) (bs : List Byte) : Except Nat State :=
  match Memory.offending a bs.length with
  | some bad => .error bad
  | none => .ok (s.setMemory (Memory.writeBytes s.memory a bs))

/-! ## Taking a fatal condition (R109, R205) -/

/-- `halt <- some (c, P, w)`, and nothing else. -/
def State.raise (s : State) (c : Cause) (w : Word) : State :=
  { s with halt := some { cause := c, addr := s.PC, word := w } }

/-- Goes on with the result of a memory access, or takes `AddressOutOfRange` in the state before it (R57, R109). -/
def State.orAddressFault {α : Type} (s : State) (w : Word) (r : Except Nat α) (k : α → State) : State :=
  match r with
  | .error bad => s.raise (.addressOutOfRange bad) w
  | .ok a => k a

/-! ## Leaving the halted condition, and every other reset (R207, R216, R260) -/

/-- The machine as constructed under a given `FONT`: the font from address 0 on (R260). Under the model's
`FONT` it is `State.reset`. -/
def State.resetUnder (font : Font) : State :=
  { State.reset with memory := Memory.ofBytes 0 font.toList }

/-- The `Reset` message under a given `FONT`: every piece of state of R44 at its reset value, but for
`run_state` and `msg_queue`, which it leaves alone; the model's own fields are no state of R44. -/
def State.resetMachineUnder (font : Font) (s : State) : State :=
  { State.resetUnder font with
    runState := s.runState
    msgQueue := s.msgQueue
    schedule := s.schedule
    draws := s.draws
    reports := s.reports }

/-- The `Reset` message (R216, R260; log 5). -/
def State.resetMachine (s : State) : State := s.resetMachineUnder Params.font

end Sys2Proof.Machine
end

