-- ==== Sys2Proof/Machine/Operands.lean ====
section
/-! DEFINITION. The operand forms (spec/00_scope R10, spec/30_encoding R72, spec/46 R189): immediates, the register block, key numbers, sprite origin, BCD digits. -/

namespace Sys2Proof.Machine

/-- The register that doubles as the flag, `VF` (R10, R22). -/
abbrev regF : Reg := 0xF

/-- `zext_16(nnn)` (R72). -/
def immAddr (nnn : Addr12) : Word := nnn.setWidth 16

/-- `zext_16(V[x])` (R9). -/
def State.vWord (s : State) (x : Reg) : Word := (s.v x).setWidth 16

/-- `I` as the natural number an effective address is computed from, never reduced (R189). -/
def State.indexAddr (s : State) : Nat := s.I.toNat

/-- The values of `V0`, ..., `Vx`, `x + 1` of them (R187). -/
def State.regBlock (s : State) (x : Reg) : List Byte := (s.V.toList).take (x.toNat + 1)

/-- `V[k], V[k+1], ... <- bs` (R188); `k` past VF writes nothing. -/
def State.loadBlock (s : State) (k : Nat) : List Byte → State
  | [] => s
  | b :: bs => State.loadBlock { s with V := s.V.setIfInBounds k b } (k + 1) bs

/-- The three BCD digits of a byte: hundreds, tens, units (R186). -/
def bcdDigits (b : Byte) : List Byte :=
  [BitVec.ofNat 8 (b.toNat / 100), BitVec.ofNat 8 (b.toNat / 10 % 10), BitVec.ofNat 8 (b.toNat % 10)]

/-- Where `LD F,Vx` points: five times the whole byte (R185). -/
def glyphAddr (b : Byte) : Word := BitVec.ofNat 16 (Config.glyphBytes * b.toNat)

/-- The key a register names, if its value is a key number (R170). -/
def keyOfByte (b : Byte) : Option Key := if h : b.toNat < 16 then some ⟨b.toNat, h⟩ else none

/-- A key number as a register value (R172). -/
def byteOfKey (k : Key) : Byte := BitVec.ofNat 8 k.val

/-- `D`: the keys down, in rising order (R172). -/
def State.downKeys (s : State) : List Key := (List.finRange 16).filter fun k => s.keysDown[k]

/-- `draw(D)`: the only key down; of several, the one the free value picks; none if no key is down
(R172, log 4). -/
def State.drawKey (s : State) : Option Key :=
  match s.downKeys with
  | [] => none
  | [k] => some k
  | k :: k' :: ks =>
    some (((k :: k' :: ks)[Config.keyChoice s.draws % (ks.length + 2)]?).getD k)

/-- `x0`: the sprite's first column (R162). -/
def State.spriteX (s : State) (x : Reg) : Nat := (s.v x).toNat % screenWidth s.hires

/-- `y0`: the sprite's first row (R162). -/
def State.spriteY (s : State) (y : Reg) : Nat := (s.v y).toNat % screenHeight s.hires

end Sys2Proof.Machine
end

