-- ==== Sys2Proof/Machine/Flags.lean ====
section
/-! DEFINITION. The flag computations and the order of the flag's and the result's write (spec/10_state R22, spec/40 R107, R108, spec/43 R146 to R152). -/

namespace Sys2Proof.Machine

/-- A flag as `VF` receives it: 1 or 0 (R22). -/
def flagByte (f : Bool) : Byte := if f then 1 else 0

/-- Carry of `ADD Vx,Vy`: the 9-bit sum exceeds 255 (R146). -/
def carryFlag (a b : Byte) : Bool := decide (255 < a.toNat + b.toNat)

/-- The low 8 bits of the sum (R141, R146). -/
def sumByte (a b : Byte) : Byte := BitVec.ofNat 8 (a.toNat + b.toNat)

/-- No borrow of `a - b`: strictly `a > b` (R147). -/
def noBorrowFlag (a b : Byte) : Bool := decide (b.toNat < a.toNat)

/-- `a - b` modulo 256 (R147). -/
def differenceByte (a b : Byte) : Byte := BitVec.ofNat 8 (a.toNat + 256 - b.toNat)

/-- The bit `SHR` shifts out (R148). -/
def lowBitFlag (a : Byte) : Bool := a.getLsbD 0

/-- The bit `SHL` shifts out (R150). -/
def highBitFlag (a : Byte) : Bool := a.getLsbD 7

/-- Writes a flag and a result computed from latched operands: `VF` first, `Vx` second, so that with
`x = 15` the result stays (R107, R108). -/
def State.setFlagThenResult (s : State) (x : Reg) (flag : Bool) (result : Byte) : State :=
  (s.setV regF (flagByte flag)).setV x result

end Sys2Proof.Machine
end

