-- ==== Sys2Proof/Machine/Cycle.lean ====
section
/-! DEFINITION. When a step happens, and its fetch (spec/40_step_cycle R100 to R103, spec/60_exceptions R210, R211). -/

namespace Sys2Proof.Machine

/-- What a `step_tick` finds to do (R211). -/
inductive TickAction where
  | nothing
  | execute
  | checkWait (x : Reg)
  deriving DecidableEq, Repr

/-- The table of R211. -/
def State.tickAction (s : State) : TickAction :=
  match s.halt, s.runState, s.wait with
  | some _, _, _ => .nothing
  | none, .paused, _ => .nothing
  | none, .running, .ready => .execute
  | none, .running, .awaitingKey x => .checkWait x

/-- `Fetch16(P)`: the word at `PC`, or the lowest offending address (R53, R101). -/
def State.fetch (s : State) : Except Nat Word :=
  match Memory.offending s.PC.toNat 2 with
  | some bad => .error bad
  | none =>
    .ok (wordOfBytes (Memory.read s.memory s.PC.toNat) (Memory.read s.memory (s.PC.toNat + 1)))

/-- What fetch and decode come to: an instruction to execute, or the state with the condition taken:
`AddressOutOfRange` with the word 0 (R101), `UnknownOpcode` with the word read (R103). -/
def State.fetchDecode (s : State) : Except State Instr :=
  match s.fetch with
  | .error bad => .error (s.raise (.addressOutOfRange bad) 0)
  | .ok w =>
    match decodeWord w with
    | none => .error (s.raise .unknownOpcode w)
    | some i => .ok i

/-- The state with the word `w` where the next step fetches it, and ready to take that step: running,
not halted, not waiting, a `step_tick` next. Where `PC` is an address no fetch can reach, `PC` is the
entry point (R57, R100, R262; log 2). -/
def State.placeWord (s : State) (w : Word) : State :=
  let pc : Word := if s.PC.toNat + 2 ≤ Config.memSize then s.PC else 0x200
  { s with
    PC := pc
    memory := Memory.writeBytes s.memory pc.toNat [hiByte w, loByte w]
    runState := .running
    wait := .ready
    halt := none
    schedule := [] }

end Sys2Proof.Machine
end

