-- ==== Sys2Proof/Machine/Alu.lean ====
section
/-! DEFINITION. Register loads and the 8-bit ALU (spec/43_alu R140 to R152). -/

namespace Sys2Proof.Machine

/-- `LD Vx,kk` (R140). -/
def execLdVxKk (x : Reg) (kk : Byte) (s : State) : Result := .next (s.setV x kk).advance

/-- `ADD Vx,kk`: no flag (R141). -/
def execAddVxKk (x : Reg) (kk : Byte) (s : State) : Result :=
  .next (s.setV x (sumByte (s.v x) kk)).advance

/-- `LD Vx,Vy` (R142). -/
def execLdVxVy (x y : Reg) (s : State) : Result := .next (s.setV x (s.v y)).advance

/-- `OR Vx,Vy`: no flag (R143). -/
def execOrVxVy (x y : Reg) (s : State) : Result := .next (s.setV x (s.v x ||| s.v y)).advance

/-- `AND Vx,Vy`: no flag (R144). -/
def execAndVxVy (x y : Reg) (s : State) : Result := .next (s.setV x (s.v x &&& s.v y)).advance

/-- `XOR Vx,Vy`: no flag (R145). -/
def execXorVxVy (x y : Reg) (s : State) : Result := .next (s.setV x (s.v x ^^^ s.v y)).advance

/-- `ADD Vx,Vy` (R146). -/
def execAddVxVy (x y : Reg) (s : State) : Result :=
  .next (s.setFlagThenResult x (carryFlag (s.v x) (s.v y)) (sumByte (s.v x) (s.v y))).advance

/-- `SUB Vx,Vy` (R147). -/
def execSubVxVy (x y : Reg) (s : State) : Result :=
  .next (s.setFlagThenResult x (noBorrowFlag (s.v x) (s.v y)) (differenceByte (s.v x) (s.v y))).advance

/-- `SHR Vx`: a logical shift by one; `y` is ignored (R148). -/
def execShrVx (x _y : Reg) (s : State) : Result :=
  .next (s.setFlagThenResult x (lowBitFlag (s.v x)) (s.v x >>> 1)).advance

/-- `SUBN Vx,Vy`: `SUB` with the operands reversed, into `Vx` (R149). -/
def execSubnVxVy (x y : Reg) (s : State) : Result :=
  .next (s.setFlagThenResult x (noBorrowFlag (s.v y) (s.v x)) (differenceByte (s.v y) (s.v x))).advance

/-- `SHL Vx`: a shift by one; `y` is ignored (R150). -/
def execShlVx (x _y : Reg) (s : State) : Result :=
  .next (s.setFlagThenResult x (highBitFlag (s.v x)) (s.v x <<< 1)).advance

end Sys2Proof.Machine
end

