-- ==== Sys2Proof/Machine/Display.lean ====
section
/-! DEFINITION. The random number and the display (spec/44_random_display R160 to R164). -/

namespace Sys2Proof.Machine

/-- `RND Vx,kk`: a free byte AND `kk` (R160; log 3). -/
def execRndVxKk (x : Reg) (kk : Byte) (s : State) : Result :=
  .next ((s.setV x (Config.randomByte s.draws &&& kk)).countDraw).advance

/-- `CLS`: all 8192 cells (R161). -/
def execCls (s : State) : Result := .next (s.setScreen []).advance

/-- What `DRW` does with the sprite's bytes, under a given `DRW_VWRAP`: the cells are drawn, `VF`
gets the collision (R162). -/
def State.drawSprite (s : State) (vwrap : Bool) (x y : Reg) (rows : List Byte) : State :=
  let drawn := drawCells
    (spriteCells (screenWidth s.hires) (screenHeight s.hires) vwrap (s.spriteX x) (s.spriteY y) rows)
    (s.screen, false)
  (s.setScreen drawn.1).setV regF (flagByte drawn.2)

/-- `DRW Vx,Vy,n` under a given `DRW_VWRAP` (R162, R163). -/
def drwUnder (vwrap : Bool) (x y : Reg) (n : Nibble) (s : State) : State :=
  s.orAddressFault (encode (.drwVxVyN x y n)) (s.memRead s.indexAddr n.toNat)
    fun rows => (s.drawSprite vwrap x y rows).advance

/-- `DRW Vx,Vy,n` (R162; log 9). -/
def execDrwVxVyN (x y : Reg) (n : Nibble) (s : State) : Result :=
  .next (drwUnder Params.drwVwrap x y n s)

end Sys2Proof.Machine
end

