-- ==== Sys2Proof/Machine/Jump.lean ====
section
/-! DEFINITION. Jumps, calls and returns (spec/41_jump_call R120 to R124). -/

namespace Sys2Proof.Machine

/-- `SYS nnn` under a given `SYS_POLICY` (R120). -/
def sysUnder (policy : SysPolicy) (nnn : Addr12) (s : State) : State :=
  match policy with
  | .nop => s.advance
  | .fault => s.raise .unknownOpcode (encode (.sys nnn))

/-- `SYS nnn` (R120; log 6). -/
def execSys (nnn : Addr12) (s : State) : Result := .next (sysUnder Params.sysPolicy nnn s)

/-- `RET` (R121). -/
def execRet (s : State) : Result :=
  if s.SP = 0 then .next (s.raise .stackUnderflow (encode .ret))
  else if h : s.SP.toNat < 16 then .next (s.pop.jump s.stack[s.SP.toNat])
  else .fault .stackPointerOutOfRange

/-- `JP nnn` (R122). -/
def execJp (nnn : Addr12) (s : State) : Result := .next (s.jump (immAddr nnn))

/-- `CALL nnn` (R123). -/
def execCall (nnn : Addr12) (s : State) : Result :=
  if s.SP = 15 then .next (s.raise .stackOverflow (encode (.call nnn)))
  else if s.SP.toNat < 16 then .next ((s.push (s.PC + 2)).jump (immAddr nnn))
  else .fault .stackPointerOutOfRange

/-- `JP V0,nnn` (R124). -/
def execJpV0Nnn (nnn : Addr12) (s : State) : Result := .next (s.jump (immAddr nnn + s.vWord 0))

end Sys2Proof.Machine
end

