-- ==== Sys2Proof/Machine/Keypad.lean ====
section
/-! DEFINITION. The keypad instructions and the wait check (spec/45_keypad R170 to R174). -/

namespace Sys2Proof.Machine

/-- The key skips' shared body: the key named by the register's value, or `KeyIndexOutOfRange` (R170, R171). -/
def State.skipOnKey (s : State) (x : Reg) (w : Word) (skips : Bool → Bool) : State :=
  match keyOfByte (s.v x) with
  | some k => s.skipIf (skips s.keysDown[k])
  | none => s.raise (.keyIndexOutOfRange (s.v x)) w

/-- `SKP Vx` (R170). -/
def execSkpVx (x : Reg) (s : State) : Result :=
  .next (s.skipOnKey x (encode (.skpVx x)) fun down => down)

/-- `SKNP Vx` (R171). -/
def execSknpVx (x : Reg) (s : State) : Result :=
  .next (s.skipOnKey x (encode (.sknpVx x)) fun down => !down)

/-- The completion of a key wait: the drawn key into `Vx`, and past the instruction (R172, R173). -/
def State.takeKey (s : State) (x : Reg) (k : Key) : State :=
  ((s.setV x (byteOfKey k)).countDraw).advance

/-- `LD Vx,K`: takes a key that is down, or suspends with `PC <- P` (R172; log 4). -/
def execLdVxK (x : Reg) (s : State) : Result :=
  match s.drawKey with
  | some k => .next (s.takeKey x k)
  | none => .next ((s.setWait (.awaitingKey x)).jump s.PC)

/-- The wait check (R173): completes the suspended `LD Vx,K` if a key is down; otherwise nothing. -/
def State.waitCheck (s : State) (x : Reg) : State :=
  match s.drawKey with
  | some k => (s.takeKey x k).setWait .ready
  | none => s

end Sys2Proof.Machine
end

