-- ==== Sys2Proof/Machine/Skip.lean ====
section
/-! DEFINITION. Conditional skips (spec/42_skip R130 to R133). -/

namespace Sys2Proof.Machine

/-- `SE Vx,kk` (R130). -/
def execSeVxKk (x : Reg) (kk : Byte) (s : State) : Result := .next (s.skipIf (s.v x == kk))

/-- `SNE Vx,kk` (R131). -/
def execSneVxKk (x : Reg) (kk : Byte) (s : State) : Result := .next (s.skipIf (s.v x != kk))

/-- `SE Vx,Vy` (R132). -/
def execSeVxVy (x y : Reg) (s : State) : Result := .next (s.skipIf (s.v x == s.v y))

/-- `SNE Vx,Vy` (R133). -/
def execSneVxVy (x y : Reg) (s : State) : Result := .next (s.skipIf (s.v x != s.v y))

end Sys2Proof.Machine
end

