-- ==== Sys2Proof/Machine/Transfer.lean ====
section
/-! DEFINITION. Timers, the index register and memory transfers (spec/46_timer_index_memory R180 to R190). -/

namespace Sys2Proof.Machine

/-- `LD I,nnn` (R180). -/
def execLdINnn (nnn : Addr12) (s : State) : Result := .next (s.setI (immAddr nnn)).advance

/-- `LD Vx,DT` (R181). -/
def execLdVxDt (x : Reg) (s : State) : Result := .next (s.setV x s.DT).advance

/-- `LD DT,Vx` (R182). -/
def execLdDtVx (x : Reg) (s : State) : Result := .next (s.setDT (s.v x)).advance

/-- `LD ST,Vx` (R183). -/
def execLdStVx (x : Reg) (s : State) : Result := .next (s.setST (s.v x)).advance

/-- `ADD I,Vx`: 16 bits, no flag (R184). -/
def execAddIVx (x : Reg) (s : State) : Result := .next (s.setI (s.I + s.vWord x)).advance

/-- `LD F,Vx` (R185). -/
def execLdFVx (x : Reg) (s : State) : Result := .next (s.setI (glyphAddr (s.v x))).advance

/-- `LD B,Vx` (R186). -/
def execLdBVx (x : Reg) (s : State) : Result :=
  .next (s.orAddressFault (encode (.ldBVx x)) (s.memWrite s.indexAddr (bcdDigits (s.v x)))
    State.advance)

/-- `LD [I],Vx`: `V0` to `Vx` to memory; `I` unchanged (R187). -/
def execLdMemVx (x : Reg) (s : State) : Result :=
  .next (s.orAddressFault (encode (.ldMemVx x)) (s.memWrite s.indexAddr (s.regBlock x))
    State.advance)

/-- `LD Vx,[I]`: `V0` to `Vx` from memory; `I` unchanged (R188). -/
def execLdVxMem (x : Reg) (s : State) : Result :=
  .next (s.orAddressFault (encode (.ldVxMem x)) (s.memRead s.indexAddr (x.toNat + 1))
    fun bytes => (s.loadBlock 0 bytes).advance)

end Sys2Proof.Machine
end

