-- ==== Sys2Proof/Machine/Events.lean ====
section
/-! DEFINITION. The other agents: the 60 Hz engine, the keypad, the control messages, the accessors (spec/60_exceptions R202, R214 to R220, R233, R234, R238, R239). -/

namespace Sys2Proof.Machine

/-- A timer's decrement, saturating at 0 (R220). -/
def decTimer (t : Byte) : Byte := if t = 0 then 0 else t - 1

/-- `tick60` (R220). -/
def State.tick60 (s : State) : State := { s with DT := decTimer s.DT, ST := decTimer s.ST }

/-- `set_key_down(k)` (R233). -/
def State.setKeyDown (s : State) (k : Key) : State :=
  { s with keysDown := s.keysDown.set k true, lastKey := some k }

/-- `set_key_up(k)` (R234). -/
def State.setKeyUp (s : State) (k : Key) : State :=
  { s with
    keysDown := s.keysDown.set k false
    lastKey := if s.lastKey = some k then none else s.lastKey }

/-- The host appends a message (R214). -/
def State.send (s : State) (m : Message) : State := { s with msgQueue := s.msgQueue ++ [m] }

/-- One report to the host (R219). -/
def State.report (s : State) (r : Report) : State := { s with reports := s.reports ++ [r] }

/-- `LoadROM` is refused for this length: the test of R217. -/
def romRefused (len : Nat) : Bool :=
  decide (Config.romLimit ≤ len) || decide (Config.memSize ≤ Config.progBase + len)

/-- `LoadROM(bytes)` (R217): all bytes at 0x200 on, or nothing and an error report. -/
def State.loadROM (s : State) (bytes : List Byte) : State :=
  if romRefused bytes.length then s.report .romTooLarge
  else (s.setMemory (Memory.writeBytes s.memory Config.progBase bytes)).report .success

/-- Processes one message (R215 to R219). -/
def State.process (s : State) (m : Message) : State :=
  match m with
  | .reset => s.resetMachine.report .success
  | .loadROM bytes => s.loadROM bytes
  | .setRunning => { s with runState := .running }.report .success
  | .setPaused => { s with runState := .paused }.report .success

/-- A drain: every message present, oldest first, to the end (R214). -/
def State.drain (s : State) : State := s.msgQueue.foldl State.process { s with msgQueue := [] }

/-- One transition of an agent other than the stepper (R212). -/
def State.occur (s : State) (e : OutsideEvent) : State :=
  match e with
  | .tick60 => s.tick60
  | .keyDown k => s.setKeyDown k
  | .keyUp k => s.setKeyUp k
  | .send m => s.send m
  | .drain => s.drain

/-! ## Accessors (R238, R239): functions of the state, without effect. The registers, timers, stack
and mode are the fields of `State` themselves. -/

/-- The pixel at column `cx`, row `cy` of the active mode (R36, R238). -/
def State.pixelAt (s : State) (cx cy : Nat) : Bool :=
  Screen.lit s.screen (cellAt (screenWidth s.hires) cx cy)

/-- The whole framebuffer, all 8192 cells (R34, R238). -/
def State.framebuffer (s : State) : List Bool :=
  (List.range Config.screenCells).map (Screen.lit s.screen)

/-- The byte at an address, for the memory accessor (R238). -/
def State.memoryAt (s : State) (a : Nat) : Byte := Memory.read s.memory a

/-- The fault record (R239). -/
def State.faultRecord (s : State) : Option HaltRecord := s.halt

/-- The codes of R201, for reference only (D19). -/
def Cause.code : Cause → Nat
  | .unknownOpcode => 1
  | .stackOverflow => 2
  | .stackUnderflow => 3
  | .addressOutOfRange _ => 4
  | .keyIndexOutOfRange _ => 5

end Sys2Proof.Machine
end

