-- ==== Sys2Proof/Machine/Step.lean ====
section
/-! DEFINITION. One transition of the machine (spec/40_step_cycle R100, spec/60_exceptions R211, R212). -/

namespace Sys2Proof.Machine

/-- A `step_tick`: nothing, one instruction, or the wait check (R100, R211). -/
def tick (s : State) : Host.Outcome State Fault Refusal :=
  match s.tickAction with
  | .nothing => .next s
  | .checkWait x => .next (s.waitCheck x)
  | .execute =>
    match s.fetchDecode with
    | .error halted => .next halted
    | .ok i => exec i s

/-- The next transition: the oldest of the schedule, or a `step_tick` when the schedule is empty (R212; log 1). -/
def step (s : State) : Host.Outcome State Fault Refusal :=
  match s.schedule with
  | [] => tick s
  | .stepTick :: rest => tick { s with schedule := rest }
  | .outside e :: rest => .next (State.occur { s with schedule := rest } e)

/-- `s` with the instruction of the table word `w` stored where the next step fetches it, ready to run
it (log 2). -/
def State.withFetchWord (s : State) (nbits w : Nat) : State := s.placeWord (tableWord nbits w)

end Sys2Proof.Machine
end

