-- ==== Sys2Proof/Safety.lean ====
section
/-! DEFINITION. What counts as a good state and as the end of a run, in the terms claims use (spec/10_state, spec/70 R270). -/

namespace Sys2Proof.Machine

/-- The stack pointer is in its valid range (R27). -/
abbrev State.SpOk (s : State) : Prop := s.SP.toNat ≤ 15

/-- No return address passes 0x1000, the one a `CALL` at 0xFFE pushes (R121, R123). -/
abbrev State.StackOk (s : State) : Prop := ∀ k : Fin 16, (s.stack[k]).toNat ≤ 0x1000

/-- No `PC` passes 0x10FE, and a pending key wait stands at an address that was fetched (R25, R172). -/
abbrev State.PcOk (s : State) : Prop :=
  s.PC.toNat ≤ 0x10FE ∧ (s.wait ≠ .ready → s.PC.toNat ≤ 0xFFE)

/-- The memory is in canonical form (R50: addresses 0x000..0xFFF). -/
abbrev State.MemoryOk (s : State) : Prop := Memory.wf s.memory = true

/-- The screen is in canonical form, and no cell of the grid is lit beyond those of the active mode (R34, R36). -/
abbrev State.ScreenOk (s : State) : Prop :=
  Screen.wfFrom (screenWidth s.hires * screenHeight s.hires) 0 s.screen = true

/-- A machine that waits for a key is not halted (R211). -/
abbrev State.WaitOk (s : State) : Prop := s.wait ≠ .ready → s.halt = none

/-- `last_key = some k` implies `keys_down[k]` (R38). -/
abbrev State.KeysOk (s : State) : Prop := ∀ k : Key, s.lastKey = some k → s.keysDown[k] = true

/-- Entry 0 of the return stack still holds what reset put there (R28). -/
abbrev State.StackZeroOk (s : State) : Prop := s.stack[0] = 0

/-- Everything the runs of the machine keep. -/
structure State.Inv (s : State) : Prop where
  sp : s.SpOk
  stack : s.StackOk
  pc : s.PcOk
  memory : s.MemoryOk
  screen : s.ScreenOk
  wait : s.WaitOk
  keys : s.KeysOk
  stackZero : s.StackZeroOk

/-- A run has ended normally: not halted, not waiting, and the word at `PC` is a `JP` to itself (R270). -/
def State.endedNormally (s : State) : Bool :=
  s.halt.isNone && decide (s.wait = .ready) &&
    (match s.fetch with
      | .ok w => w == (0x1000 ||| s.PC)
      | .error _ => false)

end Sys2Proof.Machine
end

