-- ==== Sys2Proof/Certificates/Slice0/Obligations.lean ====
section
/-! DEFINITION. The statements about the machine, in the terms of spec/'s numbered rules. Rules whose text carries the spec's own mark (a decision D, general knowledge G, or "derived") are named as such. -/

namespace Sys2Proof.Claims

open Sys2Proof.Machine

/-! ## The words the statements use -/

/-- The next transition is a `step_tick` (R212; log 1): the schedule is empty or names it. -/
def TickNext (s : State) : Prop := s.schedule = [] ∨ ∃ rest, s.schedule = .stepTick :: rest

/-- The state as the transition sees it: its own entry taken from the schedule. -/
def Ticked (s : State) : State := { s with schedule := s.schedule.tail }

/-- A `step_tick` executes an instruction (R100). -/
def CanExecute (s : State) : Prop := s.halt = none ∧ s.runState = .running ∧ s.wait = .ready

/-- The word at `PC` (R53). -/
def wordAt (s : State) (a : Nat) : Word := wordOfBytes (s.memoryAt a) (s.memoryAt (a + 1))

/-- `t` is `s` with register `x` holding `b`, the next instruction next, and nothing else changed. -/
def WritesOnly (s t : State) (x : Reg) (b : Byte) : Prop :=
  t.v x = b ∧ (∀ r, r ≠ x → t.v r = s.v r) ∧ t = { s with V := t.V, PC := s.PC + 2 }

/-- `t` is `s` with the result in `x`, the flag in `VF` unless `x` is `VF`, the next instruction next,
and nothing else changed (R107, R108). -/
def WritesFlagAndResult (s t : State) (x : Reg) (flag : Bool) (result : Byte) : Prop :=
  (∀ r, t.v r = if r = x then result else if r = 15 then (if flag then 1 else 0) else s.v r) ∧
    t = { s with V := t.V, PC := s.PC + 2 }

/-- `t` is `s` with the condition taken: the record in `halt`, and nothing else changed (R205). -/
def Halts (s t : State) (c : Cause) (w : Word) : Prop :=
  t = { s with halt := some { cause := c, addr := s.PC, word := w } }

/-- The registers an instruction may write: the table of R21. -/
def mayWrite : Instr → Reg → Prop
  | .ldVxKk x _, r | .addVxKk x _, r | .rndVxKk x _, r | .ldVxDt x, r | .ldVxK x, r => r = x
  | .ldVxVy x _, r | .orVxVy x _, r | .andVxVy x _, r | .xorVxVy x _, r => r = x
  | .addVxVy x _, r | .subVxVy x _, r | .subnVxVy x _, r | .shrVx x _, r | .shlVx x _, r =>
    r = x ∨ r = 15
  | .drwVxVyN _ _ _, r => r = 15
  | .ldVxMem x, r => r.toNat ≤ x.toNat
  | .sys _, _ | .cls, _ | .ret, _ | .jp _, _ | .call _, _ => False
  | .seVxKk _ _, _ | .sneVxKk _ _, _ | .seVxVy _ _, _ | .sneVxVy _ _, _ => False
  | .ldINnn _, _ | .jpV0Nnn _, _ | .skpVx _, _ | .sknpVx _, _ => False
  | .ldDtVx _, _ | .ldStVx _, _ | .addIVx _, _ | .ldFVx _, _ | .ldBVx _, _ | .ldMemVx _, _ => False

/-- `P + 4` when the condition holds, else `P + 2`. -/
def skipPc (s : State) (c : Bool) : Word := if c then s.PC + 4 else s.PC + 2

/-- `PC` after an instruction that raises no condition: the table of R24. -/
def pcAfter : Instr → State → Word
  | .jp nnn, _ | .call nnn, _ => nnn.zeroExtend 16
  | .ret, s => (s.stack[s.SP.toNat]?).getD 0
  | .jpV0Nnn nnn, s => nnn.zeroExtend 16 + (s.v 0).zeroExtend 16
  | .seVxKk x kk, s => skipPc s (decide (s.v x = kk))
  | .sneVxKk x kk, s => skipPc s (decide (s.v x ≠ kk))
  | .seVxVy x y, s => skipPc s (decide (s.v x = s.v y))
  | .sneVxVy x y, s => skipPc s (decide (s.v x ≠ s.v y))
  | .skpVx x, s => skipPc s ((s.keysDown[(s.v x).toNat]?).getD false)
  | .sknpVx x, s => skipPc s (!(s.keysDown[(s.v x).toNat]?).getD false)
  | .ldVxK _, s => if s.keysDown.any id then s.PC + 2 else s.PC
  | .sys _, s | .cls, s | .ldVxKk _ _, s | .addVxKk _ _, s | .ldVxVy _ _, s => s.PC + 2
  | .orVxVy _ _, s | .andVxVy _ _, s | .xorVxVy _ _, s | .addVxVy _ _, s => s.PC + 2
  | .subVxVy _ _, s | .shrVx _ _, s | .subnVxVy _ _, s | .shlVx _ _, s => s.PC + 2
  | .ldINnn _, s | .rndVxKk _ _, s | .drwVxVyN _ _ _, s | .ldVxDt _, s => s.PC + 2
  | .ldDtVx _, s | .ldStVx _, s | .addIVx _, s | .ldFVx _, s | .ldBVx _, s => s.PC + 2
  | .ldMemVx _, s | .ldVxMem _, s => s.PC + 2

/-- `W` and `H` of R35. -/
def width (s : State) : Nat := if s.hires then 128 else 64
def height (s : State) : Nat := if s.hires then 64 else 32

/-- Whether a set bit of the sprite of `DRW Vx,Vy,n` falls on the pixel `(cx, cy)`: row `r` of the
sprite is screen row `y0 + r` (no wrap below the bottom edge, D11), its column `c` is bit `7 - c` of the
row's byte (D12, G13) and lies at column `(x0 + c) mod W` (R162). -/
def spriteBit (s : State) (x y : Reg) (n : Nibble) (cx cy : Nat) : Bool :=
  (List.range n.toNat).any fun r => (List.range 8).any fun c =>
    (s.memoryAt (s.I.toNat + r)).getLsbD (7 - c) &&
      decide ((s.v y).toNat % height s + r = cy) && decide (((s.v x).toNat % width s + c) % width s = cx)

end Sys2Proof.Claims

open Sys2Proof Sys2Proof.Machine Sys2Proof.Claims

/-! ## The codec, the decoder and the encoder -/

/-- R10: the operand names, cut from every word in the same way, and what `Vx` and `VF` name. -/
def Obligations.CodecFieldsOfEveryWord : Prop :=
  ∀ (w : Word) (s : State) (x : Reg),
    (fieldNnn w).toNat = w.toNat &&& 0x0FFF ∧
    (fieldX w).toNat = (w.toNat >>> 8) &&& 0xF ∧
    (fieldY w).toNat = (w.toNat >>> 4) &&& 0xF ∧
    (fieldKk w).toNat = w.toNat &&& 0xFF ∧
    (fieldN w).toNat = w.toNat &&& 0xF ∧
    (nib0 w).toNat = w.toNat >>> 12 ∧ nib1 w = fieldX w ∧ nib2 w = fieldY w ∧ nib3 w = fieldN w ∧
    s.v x = s.V[x.toNat] ∧ s.v 15 = s.V[15] ∧ s.v 0 = s.V[0]

/-- R92: decoding the word of an instruction gives the instruction back with every operand field, from
the word and from the bytes with whatever follows them; the one exception is `SYS nnn` with
`nnn < 0x100`, whose word does not decode to `SYS`. -/
def Obligations.DecodeOfEncodeIsTheInstruction : Prop :=
  (∀ (i : Instr) (rest : List Byte), i.wf = true →
    decodeWord (encode i) = some i ∧ decode (encodeBytes i ++ rest) = .ok (i, rest)) ∧
  ∀ nnn : Addr12, nnn.toNat < 0x100 → ∀ n', decodeWord (encode (.sys nnn)) ≠ some (.sys n')

/-- The other direction: a word that decodes is the word of the instruction it decodes to, ignored
operand bits included, and that instruction is well-formed. -/
def Obligations.DecodedWordIsItsEncoding : Prop :=
  ∀ (w : Word) (i : Instr), decodeWord w = some i → i.wf = true ∧ encode i = w

/-- R80's table (the encodings are G3, G4; the row `0x00kk` is decision D3): the unrecognised words. -/
def Obligations.UnrecognisedWordsAreExactly : Prop :=
  ∀ w : Word, decodeWord w = none ↔
    (nib0 w = 0x0 ∧ nib1 w = 0x0 ∧ fieldKk w ∉ [0xE0#8, 0xEE#8]) ∨
    (nib0 w = 0x5 ∧ nib3 w ≠ 0x0) ∨
    (nib0 w = 0x8 ∧ nib3 w ∈ [0x8#4, 0x9#4, 0xA#4, 0xB#4, 0xC#4, 0xD#4, 0xF#4]) ∨
    (nib0 w = 0x9 ∧ nib3 w ≠ 0x0) ∨
    (nib0 w = 0xE ∧ fieldKk w ∉ [0x9E#8, 0xA1#8]) ∨
    (nib0 w = 0xF ∧ fieldKk w ∉
      [0x07#8, 0x0A#8, 0x15#8, 0x18#8, 0x1E#8, 0x29#8, 0x33#8, 0x55#8, 0x65#8])

/-- R74, R75 (over the patterns of R78, G4): the four-level tree that the 35 patterns build, walked
exact-before-wildcard and without going back, decodes every word as the decoder does. -/
def Obligations.DispatchTreeAgreesWithDecoder : Prop :=
  ∀ w : Word, treeDecode w = decodeWord w

/-- R77 (marked derived): the mask/match decoder with the added condition on the `SYS` row; no two rows
select one word, and the row that selects it gives what the decoder gives. -/
def Obligations.AtMostOneRowSelectsAWord : Prop :=
  ∀ w : Word, (opcodeRows.filter fun r => r.selects w).length ≤ 1 ∧
    ((opcodeRows.find? fun r => r.selects w).map fun r => r.build w) = decodeWord w

/-- Words of spec/95_test_vectors 2.1 (encodings G4), one or two of each family. -/
def Obligations.DecodeOfWordsOfTheSpec : Prop :=
  decodeWord 0x0000 = none ∧ decodeWord 0x00E0 = some .cls ∧ decodeWord 0x00EE = some .ret ∧
  decodeWord 0x0100 = some (.sys 0x100) ∧ decodeWord 0x2ABC = some (.call 0xABC) ∧
  decodeWord 0x4A7F = some (.sneVxKk 0xA 0x7F) ∧ decodeWord 0x5121 = none ∧
  decodeWord 0x8126 = some (.shrVx 1 2) ∧ decodeWord 0x812E = some (.shlVx 1 2) ∧
  decodeWord 0xD125 = some (.drwVxVyN 1 2 5) ∧ decodeWord 0xE1A1 = some (.sknpVx 1) ∧
  decodeWord 0xF155 = some (.ldMemVx 1) ∧ decodeWord 0xF165 = some (.ldVxMem 1)

/-! ## The step cycle -/

/-- When the bytes at `PC` decode to an instruction and a `step_tick` executes, the step is that
instruction's execution; the step's only own effect is to take its entry from the schedule (log 1). -/
def Obligations.StepRunsTheDecodedInstruction : Prop :=
  ∀ (s : State) (i : Instr), TickNext s → CanExecute s → s.PC.toNat ≤ 0xFFE →
    decode [s.memoryAt s.PC.toNat, s.memoryAt (s.PC.toNat + 1)] = .ok (i, []) →
    step s = exec i (Ticked s)

/-- A word placed where the next step fetches runs next, in any state (log 2). -/
def Obligations.PlacedWordRunsNext : Prop :=
  ∀ (s : State) (w : Word) (i : Instr), decodeWord w = some i →
    step (s.withFetchWord 16 w.toNat) = exec i (s.withFetchWord 16 w.toNat) ∧
    (s.withFetchWord 16 w.toNat).V = s.V ∧ (s.withFetchWord 16 w.toNat).I = s.I

/-- R100: what a `step_tick` does in each condition: one step (fetch, decode, execute), the wait check,
or nothing. -/
def Obligations.StepTickByCondition : Prop :=
  ∀ s : State, TickNext s →
    (CanExecute s → step s =
      (match (Ticked s).fetchDecode with
        | .ok i => exec i (Ticked s)
        | .error halted => .next halted)) ∧
    (∀ x, s.halt = none → s.runState = .running → s.wait = .awaitingKey x →
      step s = .next ((Ticked s).waitCheck x)) ∧
    (s.halt ≠ none ∨ s.runState ≠ .running → step s = .next (Ticked s))

/-- R101 (decision D6 for the bound): a fetch that would reach 0x1000 or more raises
`AddressOutOfRange` with the lowest offending address and the word 0. -/
def Obligations.FetchAboveMemoryHalts : Prop :=
  ∀ s : State, TickNext s → CanExecute s → 0xFFF ≤ s.PC.toNat →
    ∃ t, step s = .next t ∧
      Halts (Ticked s) t (.addressOutOfRange (if s.PC.toNat ≤ 0x1000 then 0x1000 else s.PC.toNat)) 0

/-- R103: an unrecognised word raises `UnknownOpcode(P, w)`; nothing else changes. -/
def Obligations.UnrecognisedWordHalts : Prop :=
  ∀ s : State, TickNext s → CanExecute s → s.PC.toNat ≤ 0xFFE →
    decodeWord (wordAt s s.PC.toNat) = none →
    ∃ t, step s = .next t ∧ Halts (Ticked s) t .unknownOpcode (wordAt s s.PC.toNat) ∧ t.PC = s.PC

/-- R109, R205 (decisions D9, D28), and the record of R42, R201: a `step_tick` that raises a fatal
condition, in any phase, changes `halt` and nothing else; the record holds `PC` and the word at `PC`, or
the word 0 where none was read. -/
def Obligations.FatalStepChangesOnlyHalt : Prop :=
  ∀ s t : State, TickNext s → s.halt = none → step s = .next t → t.halt ≠ none →
    ∃ c w, Halts (Ticked s) t c w ∧ (s.PC.toNat ≤ 0xFFE → w = wordAt s s.PC.toNat) ∧
      (0xFFF ≤ s.PC.toNat → w = 0)

/-- R201 (decisions D6, D13; `SYS_POLICY` at its default, log 6): which handler raises which condition,
when, with which datum. -/
def Obligations.EachConditionHasItsInstructions : Prop :=
  ∀ (i : Instr) (s t : State) (r : HaltRecord), s.halt = none → exec i s = .next t → t.halt = some r →
    (match r.cause with
      | .unknownOpcode => False
      | .stackOverflow => s.SP = 15 ∧ ∃ nnn, i = .call nnn
      | .stackUnderflow => s.SP = 0 ∧ i = .ret
      | .addressOutOfRange a =>
        a = max s.I.toNat 0x1000 ∧
          ((∃ x y n, i = .drwVxVyN x y n ∧ 1 ≤ n.toNat ∧ 0x1000 < s.I.toNat + n.toNat) ∨
            (∃ x, i = .ldBVx x ∧ 0x1000 < s.I.toNat + 3) ∨
            (∃ x, i = .ldMemVx x ∧ 0x1000 < s.I.toNat + (x.toNat + 1)) ∨
            ∃ x, i = .ldVxMem x ∧ 0x1000 < s.I.toNat + (x.toNat + 1))
      | .keyIndexOutOfRange k =>
        15 < k.toNat ∧ ∃ x, k = s.v x ∧ (i = .skpVx x ∨ i = .sknpVx x))

/-- The machine never gets stuck: with `SP` in its range (an invariant, R27) every instruction and every
step answers a next state; outside it only `CALL` and `RET` stop (log 7). -/
def Obligations.EveryStepAnswersANextState : Prop :=
  (∀ s : State, s.SpOk → (∀ i, ∃ t, exec i s = .next t) ∧ ∃ t, step s = .next t) ∧
  ∀ (i : Instr) (s : State) (f : Fault), exec i s = .fault f → ¬ s.SpOk ∧ (i = .ret ∨ ∃ n, i = .call n)

/-- R207: a halted machine stays halted with its record through every transition but one, a drain that
processes a `Reset`; after that one it is not halted. -/
def Obligations.HaltIsLeftOnlyByReset : Prop :=
  ∀ (s t : State) (r : HaltRecord), s.halt = some r → step s = .next t →
    t.halt = (match s.schedule with
      | .outside .drain :: _ => if Message.reset ∈ s.msgQueue then none else some r
      | _ => some r)

/-! ## Whole-machine tables -/

/-- R21 (marked derived): no instruction writes a V register outside the table. -/
def Obligations.RegistersWrittenByEachInstruction : Prop :=
  ∀ (i : Instr) (s t : State) (r : Reg), exec i s = .next t → t.v r ≠ s.v r → mayWrite i r

/-- R24 (marked derived): `PC` after every instruction; a fatal condition leaves it. -/
def Obligations.PcAfterEachInstruction : Prop :=
  ∀ (i : Instr) (s t : State), s.halt = none → exec i s = .next t →
    t.PC = if t.halt = none then pcAfter i s else s.PC

/-- R26 to R29, R34, R35, R37, R40, R41, R52, R161, R162: which instructions write each piece of state
beside the V registers and `PC`; every piece not named is written by no instruction. -/
def Obligations.StateWrittenByEachInstruction : Prop :=
  ∀ (i : Instr) (s t : State), exec i s = .next t →
    (t.I ≠ s.I → (∃ n, i = .ldINnn n) ∨ (∃ x, i = .addIVx x) ∨ ∃ x, i = .ldFVx x) ∧
    (t.SP ≠ s.SP → i = .ret ∨ ∃ n, i = .call n) ∧
    (t.stack ≠ s.stack → ∃ n, i = .call n) ∧ t.stack[0] = s.stack[0] ∧
    (t.DT ≠ s.DT → ∃ x, i = .ldDtVx x) ∧ (t.ST ≠ s.ST → ∃ x, i = .ldStVx x) ∧
    (t.memory ≠ s.memory → (∃ x, i = .ldBVx x) ∨ ∃ x, i = .ldMemVx x) ∧
    (t.screen ≠ s.screen → i = .cls ∨ ∃ x y n, i = .drwVxVyN x y n) ∧
    (t.wait ≠ s.wait → ∃ x, i = .ldVxK x) ∧
    t.hires = s.hires ∧ t.keysDown = s.keysDown ∧ t.lastKey = s.lastKey ∧ t.runState = s.runState ∧
    t.msgQueue = s.msgQueue ∧ t.schedule = s.schedule ∧ t.reports = s.reports ∧
    (t.draws ≠ s.draws → (∃ x k, i = .rndVxKk x k) ∨ ∃ x, i = .ldVxK x)

/-- R27: only `CALL` (plus 1) and `RET` (minus 1) write `SP`; it never leaves 0..15; the step that would
take it outside raises the condition and does not write it; it is 0 at reset. -/
def Obligations.StackPointerStaysInRange : Prop :=
  State.reset.SP = 0 ∧
  (∀ (i : Instr) (s t : State), s.SpOk → exec i s = .next t → t.SpOk ∧
    (t.SP ≠ s.SP → ((∃ n, i = .call n) ∧ t.SP.toNat = s.SP.toNat + 1) ∨
      (i = .ret ∧ t.SP.toNat + 1 = s.SP.toNat))) ∧
  (∀ (s : State) (nnn : Addr12), s.SP = 15 →
    ∃ t, exec (.call nnn) s = .next t ∧ Halts s t .stackOverflow (encode (.call nnn))) ∧
  (∀ s : State, s.SP = 0 → ∃ t, exec .ret s = .next t ∧ Halts s t .stackUnderflow (encode .ret))

/-! ## Jumps, calls, returns -/

/-- R120 (decision D2, log 6): `SYS nnn` only moves on; under the other policy it would raise
`UnknownOpcode`. -/
def Obligations.SysOnlyAdvances : Prop :=
  ∀ (s : State) (nnn : Addr12), exec (.sys nnn) s = .next { s with PC := s.PC + 2 } ∧
    Halts s (sysUnder .fault nnn s) .unknownOpcode (encode (.sys nnn))

/-- R122: `JP nnn` and its word; a jump to its own address changes nothing, and after one to 0xFFF the
next fetch raises `AddressOutOfRange`. -/
def Obligations.JumpSetsPc : Prop :=
  ∀ (s : State) (nnn : Addr12), decodeWord (0x1#4 ++ nnn) = some (.jp nnn) ∧
    ∃ t, exec (.jp nnn) s = .next t ∧ t.PC.toNat = nnn.toNat ∧ t = { s with PC := t.PC } ∧
      (nnn.toNat = s.PC.toNat → t = s) ∧
      (nnn = 0xFFF → CanExecute s → s.schedule = [] →
        ∃ u, step t = .next u ∧ Halts t u (.addressOutOfRange 0x1000) 0)

/-- R123 (decision D10): `CALL nnn` below the limit. -/
def Obligations.CallPushesAndJumps : Prop :=
  ∀ (s : State) (nnn : Addr12), s.SP.toNat < 15 →
    ∃ t, exec (.call nnn) s = .next t ∧ t.SP.toNat = s.SP.toNat + 1 ∧
      (∀ k : Fin 16, t.stack[k] = if k.val = s.SP.toNat + 1 then s.PC + 2 else s.stack[k]) ∧
      t.PC.toNat = nnn.toNat ∧ t = { s with SP := t.SP, stack := t.stack, PC := t.PC }

/-- R121 (encoding G4): `RET` above 0. -/
def Obligations.ReturnPopsAndJumps : Prop :=
  ∀ (s : State) (k : Fin 16), s.SP.toNat = k.val → k ≠ 0 →
    ∃ t, exec .ret s = .next t ∧ t.PC = s.stack[k] ∧ t.SP.toNat + 1 = s.SP.toNat ∧
      t = { s with PC := t.PC, SP := t.SP }

/-- R121, R123: a `RET` right after a `CALL` goes to the instruction after the call, with `SP` and every
entry up to it as before. -/
def Obligations.ReturnUndoesCall : Prop :=
  ∀ (s t : State) (nnn : Addr12), s.SP.toNat < 15 → exec (.call nnn) s = .next t →
    ∃ u, exec .ret t = .next u ∧ u.PC = s.PC + 2 ∧ u.SP = s.SP ∧
      (∀ k : Fin 16, k.val ≤ s.SP.toNat → u.stack[k] = s.stack[k]) ∧
      u = { s with PC := s.PC + 2, stack := u.stack }

/-- R124 (G6, decision D31): `JP V0,nnn`, a sum of natural numbers that never wraps. -/
def Obligations.JumpPlusV0NeverWraps : Prop :=
  ∀ (s : State) (nnn : Addr12),
    ∃ t, exec (.jpV0Nnn nnn) s = .next t ∧ t.PC.toNat = nnn.toNat + (s.v 0).toNat ∧
      t.PC.toNat ≤ 0x10FE ∧ t = { s with PC := t.PC }

/-! ## Skips -/

/-- R130: `SE Vx,kk` and its word; from an address that was fetched the skip passes the end of memory
only at 0xFFC or above, and then the next fetch raises `AddressOutOfRange`. -/
def Obligations.SkipIfEqualByte : Prop :=
  ∀ (s : State) (x : Reg) (kk : Byte), decodeWord (0x3#4 ++ x ++ kk) = some (.seVxKk x kk) ∧
    (s.v x = kk → exec (.seVxKk x kk) s = .next { s with PC := s.PC + 4 }) ∧
    (s.v x ≠ kk → exec (.seVxKk x kk) s = .next { s with PC := s.PC + 2 }) ∧
    (s.PC.toNat ≤ 0xFFE → 0x1000 ≤ (s.PC + 4).toNat → 0xFFC ≤ s.PC.toNat ∧
      (s.v x = kk → CanExecute s → s.schedule = [] → ∀ t, exec (.seVxKk x kk) s = .next t →
        ∃ u, step t = .next u ∧ Halts t u (.addressOutOfRange (s.PC.toNat + 4)) 0))

/-- R131 to R133 (G7): the other three skips on registers; with `x = y`, `SE` always and `SNE` never
skips. -/
def Obligations.OtherRegisterSkips : Prop :=
  ∀ (s : State) (x y : Reg) (kk : Byte),
    (s.v x ≠ kk → exec (.sneVxKk x kk) s = .next { s with PC := s.PC + 4 }) ∧
    (s.v x = kk → exec (.sneVxKk x kk) s = .next { s with PC := s.PC + 2 }) ∧
    (s.v x = s.v y → exec (.seVxVy x y) s = .next { s with PC := s.PC + 4 }) ∧
    (s.v x ≠ s.v y → exec (.seVxVy x y) s = .next { s with PC := s.PC + 2 }) ∧
    (s.v x ≠ s.v y → exec (.sneVxVy x y) s = .next { s with PC := s.PC + 4 }) ∧
    (s.v x = s.v y → exec (.sneVxVy x y) s = .next { s with PC := s.PC + 2 })

/-! ## Loads and the ALU -/

/-- R140: `LD Vx,kk` and its word. -/
def Obligations.LoadByte : Prop :=
  ∀ (s : State) (x : Reg) (kk : Byte), decodeWord (0x6#4 ++ x ++ kk) = some (.ldVxKk x kk) ∧
    ∃ t, exec (.ldVxKk x kk) s = .next t ∧ WritesOnly s t x kk

/-- R141 to R145 (G8, G9, decision D20: `VF` is not written): the flagless register instructions. -/
def Obligations.FlaglessRegisterInstructions : Prop :=
  ∀ (s : State) (x y : Reg) (kk : Byte),
    (∃ t, exec (.addVxKk x kk) s = .next t ∧ WritesOnly s t x (s.v x + kk)) ∧
    (∃ t, exec (.ldVxVy x y) s = .next t ∧ WritesOnly s t x (s.v y)) ∧
    (∃ t, exec (.orVxVy x y) s = .next t ∧ WritesOnly s t x (s.v x ||| s.v y)) ∧
    (∃ t, exec (.andVxVy x y) s = .next t ∧ WritesOnly s t x (s.v x &&& s.v y)) ∧
    (∃ t, exec (.xorVxVy x y) s = .next t ∧ WritesOnly s t x (s.v x ^^^ s.v y))

/-- R146, R147, R149 (decision D5 where `VF` is an operand; G4, G11): sum and differences with their
flags, and R151's law of `ADD`. -/
def Obligations.ArithmeticWithFlag : Prop :=
  ∀ (s : State) (x y : Reg),
    (∃ t, exec (.addVxVy x y) s = .next t ∧
      WritesFlagAndResult s t x (decide (255 < (s.v x).toNat + (s.v y).toNat)) (s.v x + s.v y) ∧
      (x ≠ 15 → (t.v x).toNat + 256 * (t.v 15).toNat = (s.v x).toNat + (s.v y).toNat)) ∧
    (∃ t, exec (.subVxVy x y) s = .next t ∧
      WritesFlagAndResult s t x (decide (s.v y < s.v x)) (s.v x - s.v y)) ∧
    (∃ t, exec (.subnVxVy x y) s = .next t ∧
      WritesFlagAndResult s t x (decide (s.v x < s.v y)) (s.v y - s.v x))

/-- R148, R150: the shifts and their words, for every value of the ignored `y`; with `x = 15` the result
stays in `VF`. -/
def Obligations.ShiftsByOne : Prop :=
  ∀ (s : State) (x y : Reg),
    decodeWord (0x8#4 ++ x ++ y ++ 0x6#4) = some (.shrVx x y) ∧
    decodeWord (0x8#4 ++ x ++ y ++ 0xE#4) = some (.shlVx x y) ∧
    (∃ t r, exec (.shrVx x y) s = .next t ∧ r.toNat = (s.v x).toNat / 2 ∧
      WritesFlagAndResult s t x (decide ((s.v x).toNat % 2 = 1)) r) ∧
    (∃ t r, exec (.shlVx x y) s = .next t ∧ r.toNat = 2 * (s.v x).toNat % 256 ∧
      WritesFlagAndResult s t x (decide (128 ≤ (s.v x).toNat)) r)

/-! ## Random number and display -/

/-- R160 (decision D29; log 3): the byte of this draw AND `kk` is written, so that no bit clear in `kk`
is set and `kk = 0` gives 0; beside it only the count of draws advances, so that the next draw is another
one. The byte is free: the statement holds whatever `Config.randomByte` is. -/
def Obligations.RandomIsMasked : Prop :=
  ∀ (s : State) (x : Reg) (kk : Byte),
    ∃ t, exec (.rndVxKk x kk) s = .next t ∧ t.v x = Config.randomByte s.draws &&& kk ∧
      (∀ j : Fin 8, kk.getLsbD j = false → (t.v x).getLsbD j = false) ∧ (kk = 0 → t.v x = 0) ∧
      (∀ r, r ≠ x → t.v r = s.v r) ∧
      t = { s with V := t.V, PC := s.PC + 2, draws := s.draws + 1 }

/-- R161 (G12, decision D15): every cell of the grid is clear, and nothing else changes. -/
def Obligations.ClearScreenClearsEveryCell : Prop :=
  ∀ s : State, ∃ t, exec .cls s = .next t ∧ (∀ c, Screen.lit t.screen c = false) ∧
    (∀ cx cy, t.pixelAt cx cy = false) ∧ t = { s with screen := t.screen, PC := s.PC + 2 }

/-- R162, R164 (decisions D11, D12, D30; `DRW_VWRAP` at its default, log 9): with the sprite in memory,
each pixel of the active mode is XORed with the sprite bit that falls on it, the other cells stay, `VF`
is 1 exactly when a lit pixel met a sprite bit and 0 otherwise, and nothing else changes. It holds in
both screen modes, with `x` or `y` equal to 15, and for `n = 0`. -/
def Obligations.DrawXorsTheSprite : Prop :=
  ∀ (s : State) (x y : Reg) (n : Nibble), n = 0 ∨ s.indexAddr + n.toNat ≤ 0x1000 →
    ∃ t, exec (.drwVxVyN x y n) s = .next t ∧
      (∀ cx cy, cx < width s → cy < height s →
        t.pixelAt cx cy = (s.pixelAt cx cy ^^ spriteBit s x y n cx cy)) ∧
      (∀ c, width s * height s ≤ c → Screen.lit t.screen c = Screen.lit s.screen c) ∧
      (t.v 15 = 0 ∨ t.v 15 = 1) ∧
      (t.v 15 = 1 ↔ ∃ cx cy, cx < width s ∧ cy < height s ∧ s.pixelAt cx cy = true ∧
        spriteBit s x y n cx cy = true) ∧
      (∀ r, r ≠ 15 → t.v r = s.v r) ∧
      t = { s with V := t.V, screen := t.screen, PC := s.PC + 2 }

/-- R164: drawing the same sprite twice at the same place restores every cell; the second draw reports a
collision exactly when the first one lit a pixel (the sentence of R164 that any drawn bit is enough is
not what R162's pseudocode gives; log 11). -/
def Obligations.DrawTwiceRestoresTheScreen : Prop :=
  ∀ (s t : State) (x y : Reg) (n : Nibble), n = 0 ∨ s.indexAddr + n.toNat ≤ 0x1000 → x ≠ 15 → y ≠ 15 →
    exec (.drwVxVyN x y n) s = .next t →
    ∃ u, exec (.drwVxVyN x y n) t = .next u ∧
      (∀ c, Screen.lit u.screen c = Screen.lit s.screen c) ∧
      (u.v 15 = 1 ↔ ∃ cx cy, cx < width s ∧ cy < height s ∧ s.pixelAt cx cy = false ∧
        spriteBit s x y n cx cy = true)

/-! ## Keypad -/

/-- R170, R171 (decision D13; encodings G4): the key skips test the key the register's value names; a
value above 15 halts. -/
def Obligations.KeySkips : Prop :=
  ∀ (s : State) (x : Reg),
    (∀ k : Key, (s.v x).toNat = k.val →
      exec (.skpVx x) s = .next { s with PC := skipPc s s.keysDown[k] } ∧
      exec (.sknpVx x) s = .next { s with PC := skipPc s (!s.keysDown[k]) }) ∧
    (15 < (s.v x).toNat →
      (∃ t, exec (.skpVx x) s = .next t ∧ Halts s t (.keyIndexOutOfRange (s.v x)) (encode (.skpVx x))) ∧
      ∃ t, exec (.sknpVx x) s = .next t ∧ Halts s t (.keyIndexOutOfRange (s.v x)) (encode (.sknpVx x)))

/-- R172 (decision D14; log 4): with no key down `LD Vx,K` suspends at its own address; with some key
down it takes one that is down, the only one if it is alone, and the count of draws advances. -/
def Obligations.WaitForKeyInstruction : Prop :=
  ∀ (s : State) (x : Reg),
    ((∀ k : Key, s.keysDown[k] = false) →
      exec (.ldVxK x) s = .next { s with wait := .awaitingKey x }) ∧
    ((∃ k : Key, s.keysDown[k] = true) →
      ∃ t, ∃ k : Key, exec (.ldVxK x) s = .next t ∧ s.keysDown[k] = true ∧ (t.v x).toNat = k.val ∧
        (∀ r, r ≠ x → t.v r = s.v r) ∧ t = { s with V := t.V, PC := s.PC + 2, draws := s.draws + 1 })

/-- R173, R66 (decision D34): the wait check fetches nothing; with no key down it changes nothing, with
one down it writes the register captured in `wait`, moves past the instruction and ends the wait, and the
count of draws advances (log 4). -/
def Obligations.WaitCheckCompletes : Prop :=
  ∀ (s : State) (x : Reg), TickNext s → s.halt = none → s.runState = .running →
    s.wait = .awaitingKey x →
    ((∀ k : Key, s.keysDown[k] = false) → step s = .next (Ticked s)) ∧
    ((∃ k : Key, s.keysDown[k] = true) →
      ∃ t, ∃ k : Key, step s = .next t ∧ s.keysDown[k] = true ∧ (t.v x).toNat = k.val ∧
        (∀ r, r ≠ x → t.v r = s.v r) ∧
        t = { Ticked s with V := t.V, PC := s.PC + 2, wait := .ready, draws := s.draws + 1 })

/-- R174 (marked derived): while the suspended instruction still stands at `PC`, the wait is
indistinguishable from executing `LD Vx,K` again at every `step_tick`. -/
def Obligations.WaitIsReexecution : Prop :=
  ∀ (s : State) (x : Reg), TickNext s → s.halt = none → s.runState = .running →
    s.wait = .awaitingKey x → s.PC.toNat ≤ 0xFFE → wordAt s s.PC.toNat = encode (.ldVxK x) →
    step s = step { s with wait := .ready }

/-! ## Timers, index register, memory transfers -/

/-- R180 to R185 (G14, G15, decisions D20, D22; encodings G4). -/
def Obligations.TimerAndIndexTransfers : Prop :=
  ∀ (s : State) (x : Reg) (nnn : Addr12),
    (∃ t, exec (.ldINnn nnn) s = .next t ∧ t.I.toNat = nnn.toNat ∧
      t = { s with I := t.I, PC := s.PC + 2 }) ∧
    (∃ t, exec (.ldVxDt x) s = .next t ∧ WritesOnly s t x s.DT) ∧
    exec (.ldDtVx x) s = .next { s with DT := s.v x, PC := s.PC + 2 } ∧
    exec (.ldStVx x) s = .next { s with ST := s.v x, PC := s.PC + 2 } ∧
    (∃ t, exec (.addIVx x) s = .next t ∧ t.I.toNat = (s.I.toNat + (s.v x).toNat) % 0x10000 ∧
      t = { s with I := t.I, PC := s.PC + 2 }) ∧
    (∃ t, exec (.ldFVx x) s = .next t ∧ t.I.toNat = 5 * (s.v x).toNat ∧
      t = { s with I := t.I, PC := s.PC + 2 })

/-- R186 (encoding G4): `LD B,Vx` stores three decimal digits of `Vx` at `I`, `I + 1`, `I + 2`; every
other byte reads as before and nothing else changes. -/
def Obligations.BcdDigitsAreStored : Prop :=
  ∀ (s : State) (x : Reg), s.indexAddr + 3 ≤ 0x1000 →
    ∃ t, exec (.ldBVx x) s = .next t ∧
      100 * (t.memoryAt s.indexAddr).toNat + 10 * (t.memoryAt (s.indexAddr + 1)).toNat +
        (t.memoryAt (s.indexAddr + 2)).toNat = (s.v x).toNat ∧
      (t.memoryAt (s.indexAddr + 1)).toNat ≤ 9 ∧ (t.memoryAt (s.indexAddr + 2)).toNat ≤ 9 ∧
      (∀ a, ¬ (s.indexAddr ≤ a ∧ a < s.indexAddr + 3) → t.memoryAt a = s.memoryAt a) ∧
      t = { s with memory := t.memory, PC := s.PC + 2 }

/-- R187 (decision D21: `I` unchanged): `LD [I],Vx` stores `V0` to `Vx` upwards from `I`; every other
byte reads as before and nothing else changes. -/
def Obligations.RegistersAreStored : Prop :=
  ∀ (s : State) (x : Reg), s.indexAddr + (x.toNat + 1) ≤ 0x1000 →
    ∃ t, exec (.ldMemVx x) s = .next t ∧
      (∀ r : Reg, r.toNat ≤ x.toNat → t.memoryAt (s.indexAddr + r.toNat) = s.v r) ∧
      (∀ a, ¬ (s.indexAddr ≤ a ∧ a < s.indexAddr + (x.toNat + 1)) → t.memoryAt a = s.memoryAt a) ∧
      t = { s with memory := t.memory, PC := s.PC + 2 }

/-- R188 (decision D21: `I` unchanged): `LD Vx,[I]` loads `V0` to `Vx` upwards from `I`; the registers
above `Vx` and everything else stay. -/
def Obligations.RegistersAreLoaded : Prop :=
  ∀ (s : State) (x : Reg), s.indexAddr + (x.toNat + 1) ≤ 0x1000 →
    ∃ t, exec (.ldVxMem x) s = .next t ∧
      (∀ r : Reg, t.v r = if r.toNat ≤ x.toNat then s.memoryAt (s.indexAddr + r.toNat) else s.v r) ∧
      t = { s with V := t.V, PC := s.PC + 2 }

/-- R57, R58 (decisions D6, D9): a data access that passes 0xFFF raises `AddressOutOfRange` with its
lowest offending address, and reads, stores and draws nothing. -/
def Obligations.DataAccessAboveMemoryHalts : Prop :=
  ∀ (s : State) (x y : Reg) (n : Nibble),
    (1 ≤ n.toNat → 0x1000 < s.I.toNat + n.toNat → ∃ t, exec (.drwVxVyN x y n) s = .next t ∧
      Halts s t (.addressOutOfRange (if s.I.toNat ≤ 0x1000 then 0x1000 else s.I.toNat))
        (encode (.drwVxVyN x y n))) ∧
    (0x1000 < s.I.toNat + 3 → ∃ t, exec (.ldBVx x) s = .next t ∧
      Halts s t (.addressOutOfRange (if s.I.toNat ≤ 0x1000 then 0x1000 else s.I.toNat))
        (encode (.ldBVx x))) ∧
    (0x1000 < s.I.toNat + (x.toNat + 1) → ∃ t, exec (.ldMemVx x) s = .next t ∧
      Halts s t (.addressOutOfRange (if s.I.toNat ≤ 0x1000 then 0x1000 else s.I.toNat))
        (encode (.ldMemVx x))) ∧
    (0x1000 < s.I.toNat + (x.toNat + 1) → ∃ t, exec (.ldVxMem x) s = .next t ∧
      Halts s t (.addressOutOfRange (if s.I.toNat ≤ 0x1000 then 0x1000 else s.I.toNat))
        (encode (.ldVxMem x)))

/-- R190 (marked derived): `LD [I],Vx`, then anything done to the V registers, then `LD Vx,[I]` with the
same `I` and `x` gives `V0` to `Vx` back. -/
def Obligations.StoreThenLoadRestoresRegisters : Prop :=
  ∀ (s t : State) (x : Reg) (V' : Vector Byte 16), s.indexAddr + (x.toNat + 1) ≤ 0x1000 →
    exec (.ldMemVx x) s = .next t →
    ∃ u, exec (.ldVxMem x) { t with V := V' } = .next u ∧
      ∀ r : Reg, r.toNat ≤ x.toNat → u.v r = s.v r

/-- R65 (marked derived): an instruction that a store writes right behind itself is what the next step
runs. -/
def Obligations.StoredInstructionRunsNext : Prop :=
  ∀ (s t : State) (i : Instr), CanExecute s → s.schedule = [] → s.PC.toNat + 4 ≤ 0x1000 →
    s.I = s.PC + 2 → decodeWord (wordOfBytes (s.v 0) (s.v 1)) = some i →
    exec (.ldMemVx 1) s = .next t → step t = exec i t

/-! ## The other agents -/

/-- R220, R222 (marked derived), R223, and decision D17 (log 16) for every condition of the machine: any
number of 60 Hz ticks takes that much from each timer and stops at 0; the transition takes 1 from each
timer that is not 0 and changes nothing else. -/
def Obligations.TimersNeverUnderflow : Prop :=
  (∀ (k : Nat) (s : State), ((State.tick60^[k]) s).DT.toNat = s.DT.toNat - k ∧
    ((State.tick60^[k]) s).ST.toNat = s.ST.toNat - k) ∧
  ∀ (s : State) (rest : List Event), s.schedule = .outside .tick60 :: rest →
    ∃ t, step s = .next t ∧ t.DT.toNat = s.DT.toNat - 1 ∧ t.ST.toNat = s.ST.toNat - 1 ∧
      t = { s with DT := t.DT, ST := t.ST, schedule := rest }

/-- R233, R234 (decision D14): the key events, in every condition of the machine. -/
def Obligations.KeyEventsSetTheirFlag : Prop :=
  ∀ (s : State) (k : Key) (rest : List Event),
    (s.schedule = .outside (.keyDown k) :: rest → ∃ t, step s = .next t ∧
      (∀ j : Key, t.keysDown[j] = if j = k then true else s.keysDown[j]) ∧ t.lastKey = some k ∧
      t = { s with keysDown := t.keysDown, lastKey := t.lastKey, schedule := rest }) ∧
    (s.schedule = .outside (.keyUp k) :: rest → ∃ t, step s = .next t ∧
      (∀ j : Key, t.keysDown[j] = if j = k then false else s.keysDown[j]) ∧
      t.lastKey = (if s.lastKey = some k then none else s.lastKey) ∧
      t = { s with keysDown := t.keysDown, lastKey := t.lastKey, schedule := rest })

/-- R215, R218: `SetRunning` and `SetPaused` write `run_state` only, beside their report; the timers run
on while paused (R220, decision D17, log 16). -/
def Obligations.RunStateMessages : Prop :=
  ∀ s : State,
    s.process .setRunning = { s with runState := .running, reports := s.reports ++ [.success] } ∧
    s.process .setPaused = { s with runState := .paused, reports := s.reports ++ [.success] } ∧
    ((s.process .setPaused).tick60.DT.toNat = s.DT.toNat - 1) ∧
    ((s.process .setPaused).tick60.ST.toNat = s.ST.toNat - 1)

/-- R216: `Reset` sets every piece of state to its reset value but for `run_state` and `msg_queue`, and
reports success; the model's own fields are no state of R44 (logs 1, 3, 8). Under any `FONT` (R5, R31) it
is the same but for the memory, which reads as that font and 0 above. -/
def Obligations.ResetMessageResets : Prop :=
  ∀ s : State, s.process .reset =
    { State.reset with
      runState := s.runState, msgQueue := s.msgQueue, schedule := s.schedule, draws := s.draws,
      reports := s.reports ++ [.success] } ∧
    ∀ font : Font, (∀ a (h : a < 80), (s.resetMachineUnder font).memoryAt a = font[a]) ∧
      (∀ a, 80 ≤ a → (s.resetMachineUnder font).memoryAt a = 0) ∧
      s.resetMachineUnder font =
        { s.resetMachine with memory := (s.resetMachineUnder font).memory }

/-- R217 (decision D27): an accepted `LoadROM` writes its bytes from 0x200 on; every other byte reads as
before and nothing else changes. -/
def Obligations.LoadRomWritesItsBytes : Prop :=
  ∀ (s : State) (bytes : List Byte), bytes.length ≤ 0xDFF →
    (∀ k (h : k < bytes.length), (s.process (.loadROM bytes)).memoryAt (0x200 + k) = bytes[k]) ∧
    (∀ a, ¬ (0x200 ≤ a ∧ a < 0x200 + bytes.length) →
      (s.process (.loadROM bytes)).memoryAt a = s.memoryAt a) ∧
    s.process (.loadROM bytes) =
      { s with
        memory := (s.process (.loadROM bytes)).memory, reports := s.reports ++ [.success] }

/-- R202: a ROM that fails the size check is no fatal condition: the state is left unmodified but for the
error report, `halt` included, and a retry with another ROM succeeds; no `step_tick` reports it. -/
def Obligations.TooLargeRomChangesNothing : Prop :=
  (∀ (s : State) (bytes retry : List Byte), 0xE00 ≤ bytes.length → retry.length < 0xE00 →
    s.process (.loadROM bytes) = { s with reports := s.reports ++ [.romTooLarge] } ∧
    ((s.process (.loadROM bytes)).process (.loadROM retry)).reports =
      s.reports ++ [.romTooLarge, .success]) ∧
  ∀ s t : State, TickNext s → step s = .next t → t.reports = s.reports

/-- R43, R214 (decision D33 for when): a send appends its message at the end of the queue and changes
nothing else, in every condition of the machine; a drain processes every message present, oldest first,
to the end, one report each. -/
def Obligations.DrainProcessesEveryMessage : Prop :=
  (∀ (s : State) (m : Message) (rest : List Event), s.schedule = .outside (.send m) :: rest →
    step s = .next { s with msgQueue := s.msgQueue ++ [m], schedule := rest }) ∧
  (∀ (s : State) (rest : List Event), s.schedule = .outside .drain :: rest →
    ∃ t, step s = .next t ∧ t = State.drain { s with schedule := rest } ∧ t.msgQueue = [] ∧
      t.schedule = rest ∧ t.reports.length = s.reports.length + s.msgQueue.length) ∧
  (∀ s : State, State.drain { s with msgQueue := [] } = { s with msgQueue := [] }) ∧
  ∀ (s : State) (ms : List Message) (m : Message),
    State.drain { s with msgQueue := ms ++ [m] } = (State.drain { s with msgQueue := ms }).process m

/-- R267: construct, `LoadROM`, `SetRunning`, drained together: the machine runs, at 0x200, with the
bytes in memory and everything else as constructed. -/
def Obligations.BootFromReset : Prop :=
  ∀ bytes : List Byte, bytes.length ≤ 0xDFF →
    ∃ t, core.run 3 { State.reset with
        schedule := [.outside (.send (.loadROM bytes)), .outside (.send .setRunning),
          .outside .drain] } = .next t ∧
      CanExecute t ∧ t.PC = 0x200 ∧ t.reports = [.success, .success] ∧
      (∀ k (h : k < bytes.length), t.memoryAt (0x200 + k) = bytes[k]) ∧
      (∀ a, ¬ (0x200 ≤ a ∧ a < 0x200 + bytes.length) → t.memoryAt a = State.reset.memoryAt a) ∧
      t = { State.reset with runState := .running, memory := t.memory, reports := t.reports }

/-! ## Invariants, reset, end of a run -/

/-- Every step keeps the invariant: `SP` in 0..15 (R27), return addresses up to 0x1000 and `stack[0]`
untouched (R28), `PC` up to 0x10FE (R25), memory and screen canonical and no cell lit beyond the active
mode (R36), no wait while halted (R211), `last_key` down (R38). -/
def Obligations.StepKeepsTheInvariant : Prop :=
  ∀ s t : State, s.Inv → step s = .next t → t.Inv

/-- The invariant holds at reset. -/
def Obligations.ResetHasTheInvariant : Prop := State.reset.Inv

/-- R36: whatever the machine does in low-res mode, cells 2048..8191 stay clear; the pixel addressing by
width. -/
def Obligations.LowResCellsStayInTheMode : Prop :=
  (∀ (s t : State) (c : Nat), s.ScreenOk → s.hires = false → step s = .next t → 2048 ≤ c →
    Screen.lit t.screen c = false) ∧
  ∀ (s : State) (cx cy : Nat), s.pixelAt cx cy =
    Screen.lit s.screen ((if s.hires then 128 else 64) * cy + cx)

/-- R44 (decisions D14, D15, D16 for the values the source does not give, G2 for the bytes of FONT, log
5): the state after construction; memory reads as FONT below 80 and as 0 above, under the model's FONT
and under any other (R5, R31, R260), which changes nothing else. -/
def Obligations.ResetValues : Prop :=
  (∀ r : Reg, State.reset.v r = 0) ∧ State.reset.I = 0 ∧ State.reset.PC = 0x200 ∧
  State.reset.SP = 0 ∧ (∀ k : Fin 16, State.reset.stack[k] = 0) ∧ State.reset.DT = 0 ∧
  State.reset.ST = 0 ∧
  (∀ a (h : a < 80), State.reset.memoryAt a = Params.font[a]) ∧
  (∀ a, 80 ≤ a → State.reset.memoryAt a = 0) ∧ State.resetUnder Params.font = State.reset ∧
  (∀ font : Font, (∀ a (h : a < 80), (State.resetUnder font).memoryAt a = font[a]) ∧
    (∀ a, 80 ≤ a → (State.resetUnder font).memoryAt a = 0) ∧
    State.resetUnder font = { State.reset with memory := (State.resetUnder font).memory }) ∧
  (∀ c, Screen.lit State.reset.screen c = false) ∧ State.reset.hires = false ∧
  (∀ k : Key, State.reset.keysDown[k] = false) ∧ State.reset.lastKey = none ∧
  State.reset.wait = .ready ∧ State.reset.halt = none ∧ State.reset.runState = .paused ∧
  State.reset.msgQueue = []

/-- R270 (decision D26): from a state that has ended normally, at a `JP` to itself, a `step_tick` changes
nothing. -/
def Obligations.EndedRunStaysEnded : Prop :=
  ∀ s : State, s.endedNormally = true → TickNext s → step s = .next (Ticked s)
end

