-- ==== Sys2Proof/Laws/Decode.lean ====
section
/-! SUPPORT. The fields of a word built from fields, and a word rebuilt from its fields (spec/30_encoding R71, R92). -/

namespace Sys2Proof

/-! ### The fields of a word of format A (an opcode nibble and `nnn`) -/

@[simp] theorem nib0_formatA (p : Nibble) (a : Addr12) : nib0 (p ++ a) = p :=
  BitVec.extractLsb'_append_eq_left

@[simp] theorem fieldNnn_formatA (p : Nibble) (a : Addr12) : fieldNnn (p ++ a) = a :=
  BitVec.extractLsb'_append_eq_right

@[simp] theorem nib1_formatA (p : Nibble) (a : Addr12) : nib1 (p ++ a) = a.extractLsb' 8 4 :=
  BitVec.extractLsb'_append_eq_of_add_le (by decide)

/-! ### The fields of a word of format XK (an opcode nibble, `x`, `kk`) -/

@[simp] theorem nib0_formatXK (p x : Nibble) (k : Byte) : nib0 (p ++ x ++ k) = p :=
  (BitVec.extractLsb'_append_eq_of_le (by decide)).trans BitVec.extractLsb'_append_eq_left

@[simp] theorem fieldX_formatXK (p x : Nibble) (k : Byte) : fieldX (p ++ x ++ k) = x :=
  (BitVec.extractLsb'_append_eq_of_le (by decide)).trans BitVec.extractLsb'_append_eq_right

@[simp] theorem fieldKk_formatXK (p x : Nibble) (k : Byte) : fieldKk (p ++ x ++ k) = k :=
  BitVec.extractLsb'_append_eq_right

/-! ### The fields of a word of format XY or XYN (four nibbles) -/

@[simp] theorem nib0_formatXY (p x y n : Nibble) : nib0 (p ++ x ++ y ++ n) = p :=
  (BitVec.extractLsb'_append_eq_of_le (by decide)).trans
    ((BitVec.extractLsb'_append_eq_of_le (by decide)).trans BitVec.extractLsb'_append_eq_left)

@[simp] theorem fieldX_formatXY (p x y n : Nibble) : fieldX (p ++ x ++ y ++ n) = x :=
  (BitVec.extractLsb'_append_eq_of_le (by decide)).trans
    ((BitVec.extractLsb'_append_eq_of_le (by decide)).trans BitVec.extractLsb'_append_eq_right)

@[simp] theorem fieldY_formatXY (p x y n : Nibble) : fieldY (p ++ x ++ y ++ n) = y :=
  (BitVec.extractLsb'_append_eq_of_le (by decide)).trans BitVec.extractLsb'_append_eq_right

@[simp] theorem nib3_formatXY (p x y n : Nibble) : nib3 (p ++ x ++ y ++ n) = n :=
  BitVec.extractLsb'_append_eq_right

@[simp] theorem fieldN_formatXY (p x y n : Nibble) : fieldN (p ++ x ++ y ++ n) = n :=
  nib3_formatXY p x y n

/-! ### A word from its fields -/

theorem word_of_formatA (w : Word) : nib0 w ++ fieldNnn w = w :=
  BitVec.extractLsb'_append_extractLsb'

theorem word_of_formatXK (w : Word) : nib0 w ++ fieldX w ++ fieldKk w = w := by
  have h : nib0 w ++ fieldX w = w.extractLsb' 8 8 :=
    BitVec.extractLsb'_append_extractLsb'_eq_extractLsb' rfl
  rw [h]
  exact BitVec.extractLsb'_append_extractLsb'

theorem word_of_formatXY (w : Word) : nib0 w ++ fieldX w ++ fieldY w ++ nib3 w = w := by
  have h1 : nib0 w ++ fieldX w = w.extractLsb' 8 8 :=
    BitVec.extractLsb'_append_extractLsb'_eq_extractLsb' rfl
  have h2 : w.extractLsb' 8 8 ++ fieldY w = w.extractLsb' 4 12 :=
    BitVec.extractLsb'_append_extractLsb'_eq_extractLsb' rfl
  rw [h1, h2]
  exact BitVec.extractLsb'_append_extractLsb'

/-- The two bytes of a word, high byte first, make the word again (R53). -/
@[simp] theorem wordOfBytes_bytes (w : Word) : wordOfBytes (hiByte w) (loByte w) = w :=
  BitVec.extractLsb'_append_extractLsb'

/-- The bytes of a word made from two bytes. -/
@[simp] theorem hiByte_wordOfBytes (a b : Byte) : hiByte (wordOfBytes a b) = a :=
  BitVec.extractLsb'_append_eq_left

@[simp] theorem loByte_wordOfBytes (a b : Byte) : loByte (wordOfBytes a b) = b :=
  BitVec.extractLsb'_append_eq_right

/-- What `decode` answers on the two bytes of a word. -/
theorem decode_bytes (w : Word) (rest : List Byte) :
    decode (hiByte w :: loByte w :: rest) =
      match decodeWord w with
      | some i => .ok (i, rest)
      | none => .error (.noHandler w) := by
  cases h : decodeWord w <;> simp [decode, h]

end Sys2Proof
end

