-- ==== Sys2Proof/Laws/Memory.lean ====
section
/-! SUPPORT. The laws of the memory: read after write, bounds, and that every operation keeps the canonical form. -/

namespace Sys2Proof.Machine

/-! ### Reading after writing -/

theorem Memory.read_erase (m : Memory) (a b : Nat) :
    Memory.read (Memory.erase m a) b = if b = a then Memory.initial b else Memory.read m b := by
  induction m with
  | nil => simp [Memory.erase, Memory.read]
  | cons c rest ih =>
    obtain ⟨d, v⟩ := c
    simp only [Memory.erase] at ih ⊢
    by_cases hd : d = a
    · subst hd
      simp only [List.filter_cons, bne_self_eq_false, Bool.false_eq_true, if_false, ih, Memory.read]
      by_cases hb : b = d
      · simp [hb]
      · simp [hb, Ne.symm hb]
    · have : (d != a) = true := by simpa using hd
      simp only [List.filter_cons, this, if_true, Memory.read, ih]
      by_cases hb : d = b
      · subst hb; simp [hd]
      · simp [hb]

theorem Memory.read_insert (m : Memory) (a b : Nat) (v : Byte) :
    Memory.read (Memory.insert a v (Memory.erase m a)) b = if b = a then v else Memory.read m b := by
  have key : ∀ l : Memory, (∀ c ∈ l, c.1 ≠ a) →
      Memory.read (Memory.insert a v l) b = if b = a then v else Memory.read l b := by
    intro l
    induction l with
    | nil => intro _; simp [Memory.insert, Memory.read, eq_comm]
    | cons c rest ih =>
      intro h
      obtain ⟨d, u⟩ := c
      have hd : d ≠ a := h (d, u) (by simp)
      have hrest := ih fun c hc => h c (by simp [hc])
      by_cases hlt : a < d
      · simp [Memory.insert, hlt, Memory.read, eq_comm]
      · simp only [Memory.insert, hlt, if_false, Memory.read, hrest]
        by_cases hb : d = b
        · subst hb; simp [hd]
        · simp [hb]
  rw [key _ (by simp [Memory.erase]), Memory.read_erase]
  by_cases hb : b = a <;> simp [hb]

/-- The law of one store: the address reads the byte stored, every other address as before. -/
theorem Memory.read_write (m : Memory) (a b : Nat) (v : Byte) :
    Memory.read (Memory.write m a v) b = if b = a then v else Memory.read m b := by
  unfold Memory.write
  split
  · next h => rw [Memory.read_erase]; by_cases hb : b = a <;> simp [hb, h]
  · exact Memory.read_insert m a b v

/-- The law of a run of stores: the bytes land in ascending order, every other address reads as before. -/
theorem Memory.read_writeBytes (m : Memory) (a b : Nat) (bs : List Byte) :
    Memory.read (Memory.writeBytes m a bs) b =
      if h : a ≤ b ∧ b < a + bs.length then bs[b - a]'(by omega) else Memory.read m b := by
  induction bs generalizing m a with
  | nil =>
    have : ¬ (a ≤ b ∧ b < a + ([] : List Byte).length) := by simp
    simp [Memory.writeBytes]
  | cons v rest ih =>
    simp only [Memory.writeBytes, ih, Memory.read_write, List.length_cons]
    by_cases h1 : a + 1 ≤ b ∧ b < a + 1 + rest.length
    · have h2 : a ≤ b ∧ b < a + (rest.length + 1) := by omega
      have h3 : b - a = b - (a + 1) + 1 := by omega
      simp [h1, h2, h3]
    · by_cases hb : b = a
      · subst hb; simp
      · have h2 : ¬ (a ≤ b ∧ b < a + (rest.length + 1)) := by omega
        rw [dif_neg h1, dif_neg h2, if_neg hb]

theorem Memory.read_writeBytes_outside (m : Memory) {a b : Nat} {bs : List Byte}
    (h : ¬ (a ≤ b ∧ b < a + bs.length)) :
    Memory.read (Memory.writeBytes m a bs) b = Memory.read m b := by
  simp [Memory.read_writeBytes, h]

/-- A memory made of bytes holds them from the address on, and the reset contents elsewhere. -/
theorem Memory.read_ofBytes (bs : List Byte) (a b : Nat) :
    Memory.read (Memory.ofBytes a bs) b =
      if h : a ≤ b ∧ b < a + bs.length then bs[b - a]'(by omega) else Memory.initial b := by
  induction bs generalizing a with
  | nil => simp [Memory.ofBytes, Memory.read]
  | cons v rest ih =>
    have hr : Memory.read (Memory.ofBytes a (v :: rest)) b =
        if a = b then v else Memory.read (Memory.ofBytes (a + 1) rest) b := by
      rw [Memory.ofBytes]
      split
      · next hv =>
        by_cases hb : a = b
        · subst hb
          rw [if_pos rfl, ih, dif_neg (by omega), hv]
        · rw [if_neg hb]
      · rfl
    rw [hr, ih]
    by_cases hb : a = b
    · subst hb; simp
    · simp only [if_neg hb, List.length_cons]
      by_cases h1 : a + 1 ≤ b ∧ b < a + 1 + rest.length
      · have h3 : b - a = b - (a + 1) + 1 := by omega
        rw [dif_pos h1, dif_pos (by omega)]
        simp [h3]
      · rw [dif_neg h1, dif_neg (by omega)]

/-- The reset contents list nothing. -/
theorem Memory.ofBytes_initial (bs : List Byte) :
    ∀ a : Nat, (∀ k (h : k < bs.length), bs[k] = Memory.initial (a + k)) → Memory.ofBytes a bs = [] := by
  induction bs with
  | nil => exact fun _ _ => rfl
  | cons b rest ih =>
    intro a h
    have hb : b = Memory.initial a := h 0 (by simp)
    rw [Memory.ofBytes, if_pos hb]
    refine ih (a + 1) fun k hk => ?_
    have := h (k + 1) (by simpa using hk)
    rw [show a + 1 + k = a + (k + 1) by omega, ← this]
    rfl

@[simp] theorem Memory.length_readBytes (m : Memory) (a n : Nat) :
    (Memory.readBytes m a n).length = n := by
  simp [Memory.readBytes]

@[simp] theorem Memory.getElem_readBytes (m : Memory) (a n k : Nat)
    (h : k < (Memory.readBytes m a n).length) :
    (Memory.readBytes m a n)[k] = Memory.read m (a + k) := by
  simp [Memory.readBytes]

/-! ### Bounds (R57) -/

theorem Memory.offending_eq_none_iff (a n : Nat) :
    Memory.offending a n = none ↔ n = 0 ∨ a + n ≤ 0x1000 := by
  unfold Memory.offending Config.memSize
  split <;> simp <;> omega

theorem Memory.offending_eq_some_iff (a n bad : Nat) :
    Memory.offending a n = some bad ↔ 1 ≤ n ∧ 0x1000 < a + n ∧ bad = max a 0x1000 := by
  unfold Memory.offending Config.memSize
  split <;> simp <;> omega

/-! ### The canonical form -/

theorem Memory.wfFrom_weaken {lo lo' : Nat} (h : lo' ≤ lo) :
    ∀ {m : Memory}, Memory.wfFrom lo m = true → Memory.wfFrom lo' m = true
  | [], _ => rfl
  | (a, v) :: rest, hm => by
    simp only [Memory.wfFrom, Bool.and_eq_true, decide_eq_true_eq] at hm ⊢
    exact ⟨⟨⟨by omega, hm.1.1.2⟩, hm.1.2⟩, hm.2⟩

theorem Memory.wfFrom_erase (a : Nat) :
    ∀ {m : Memory} {lo : Nat}, Memory.wfFrom lo m = true → Memory.wfFrom lo (Memory.erase m a) = true
  | [], _, _ => rfl
  | (b, v) :: rest, lo, hm => by
    have hm' := hm
    simp only [Memory.wfFrom, Bool.and_eq_true, decide_eq_true_eq] at hm
    have ih := Memory.wfFrom_erase a hm.2
    by_cases hb : b = a
    · have : Memory.erase ((b, v) :: rest) a = Memory.erase rest a := by simp [Memory.erase, hb]
      rw [this]
      exact Memory.wfFrom_weaken (by omega) ih
    · have : Memory.erase ((b, v) :: rest) a = (b, v) :: Memory.erase rest a := by
        simp [Memory.erase, hb]
      rw [this]
      simp only [Memory.wfFrom, Bool.and_eq_true, decide_eq_true_eq]
      exact ⟨hm.1, ih⟩

theorem Memory.wfFrom_insert {a : Nat} {v : Byte} (ha : a < 0x1000) (hv : v ≠ Memory.initial a) :
    ∀ {m : Memory} {lo : Nat}, lo ≤ a → (∀ c ∈ m, c.1 ≠ a) → Memory.wfFrom lo m = true →
      Memory.wfFrom lo (Memory.insert a v m) = true
  | [], lo, hlo, _, _ => by
    simp [Memory.insert, Memory.wfFrom, hlo, hv, Config.memSize, ha]
  | (b, u) :: rest, lo, hlo, hne, hm => by
    simp only [Memory.wfFrom, Bool.and_eq_true, decide_eq_true_eq] at hm
    have hb : b ≠ a := hne (b, u) (by simp)
    by_cases hlt : a < b
    · simp only [Memory.insert, hlt, if_true, Memory.wfFrom, Bool.and_eq_true, decide_eq_true_eq]
      refine ⟨⟨⟨hlo, ha⟩, by simpa using hv⟩, ⟨⟨⟨by omega, hm.1.1.2⟩, hm.1.2⟩, hm.2⟩⟩
    · simp only [Memory.insert, hlt, if_false, Memory.wfFrom, Bool.and_eq_true, decide_eq_true_eq]
      exact ⟨hm.1, Memory.wfFrom_insert ha hv (by omega) (fun c hc => hne c (by simp [hc])) hm.2⟩

/-- A store inside the address space keeps the canonical form. -/
theorem Memory.wf_write {m : Memory} {a : Nat} (v : Byte) (ha : a < 0x1000) (hm : Memory.wf m = true) :
    Memory.wf (Memory.write m a v) = true := by
  unfold Memory.write Memory.wf
  split
  · exact Memory.wfFrom_erase a hm
  · next hv =>
    exact Memory.wfFrom_insert ha hv (Nat.zero_le a) (by simp [Memory.erase]) (Memory.wfFrom_erase a hm)

/-- A run of stores inside the address space keeps the canonical form. -/
theorem Memory.wf_writeBytes {m : Memory} {a : Nat} {bs : List Byte} (ha : a + bs.length ≤ 0x1000)
    (hm : Memory.wf m = true) : Memory.wf (Memory.writeBytes m a bs) = true := by
  induction bs generalizing m a with
  | nil => exact hm
  | cons v rest ih =>
    simp only [List.length_cons] at ha
    exact ih (by omega) (Memory.wf_write v (by omega) hm)

/-- A memory made of bytes below 0x1000 is canonical. -/
theorem Memory.wfFrom_ofBytes (bs : List Byte) :
    ∀ a : Nat, a + bs.length ≤ 0x1000 → Memory.wfFrom a (Memory.ofBytes a bs) = true := by
  induction bs with
  | nil => exact fun _ _ => rfl
  | cons b rest ih =>
    intro a h
    rw [List.length_cons] at h
    have hr := ih (a + 1) (by omega)
    rw [Memory.ofBytes]
    split
    · exact Memory.wfFrom_weaken (Nat.le_succ a) hr
    · next hb => simp [Memory.wfFrom, Config.memSize, hb, hr]; omega


/-- Memory after reset is canonical. -/
theorem Memory.wf_reset : Memory.wf State.reset.memory = true := rfl

/-! ### `MemRead` and `MemWrite` -/

/-- All that `MemRead` can answer. -/
theorem State.memRead_cases (s : State) (a n : Nat) :
    (1 ≤ n ∧ 0x1000 < a + n ∧ s.memRead a n = .error (max a 0x1000)) ∨
    ((n = 0 ∨ a + n ≤ 0x1000) ∧ s.memRead a n = .ok (Memory.readBytes s.memory a n)) := by
  unfold State.memRead
  cases h : Memory.offending a n with
  | some bad =>
    obtain ⟨h1, h2, rfl⟩ := (Memory.offending_eq_some_iff a n bad).1 h
    exact .inl ⟨h1, h2, rfl⟩
  | none => exact .inr ⟨(Memory.offending_eq_none_iff a n).1 h, rfl⟩

/-- All that `MemWrite` can answer. -/
theorem State.memWrite_cases (s : State) (a : Nat) (bs : List Byte) :
    (1 ≤ bs.length ∧ 0x1000 < a + bs.length ∧ s.memWrite a bs = .error (max a 0x1000)) ∨
    ((bs.length = 0 ∨ a + bs.length ≤ 0x1000) ∧
      s.memWrite a bs = .ok (s.setMemory (Memory.writeBytes s.memory a bs))) := by
  unfold State.memWrite
  cases h : Memory.offending a bs.length with
  | some bad =>
    obtain ⟨h1, h2, rfl⟩ := (Memory.offending_eq_some_iff a _ bad).1 h
    exact .inl ⟨h1, h2, rfl⟩
  | none => exact .inr ⟨(Memory.offending_eq_none_iff a _).1 h, rfl⟩

end Sys2Proof.Machine
end

