-- ==== Sys2Proof/Laws/Screen.lean ====
section
/-! SUPPORT. The laws of the screen: what a toggle does to each cell, and that it keeps the canonical form. -/

namespace Sys2Proof.Machine

theorem Screen.mem_insert (scr : Screen) (c d : Nat) : d ∈ Screen.insert c scr ↔ d = c ∨ d ∈ scr := by
  induction scr with
  | nil => simp [Screen.insert]
  | cons e rest ih =>
    by_cases h : c < e
    · simp [Screen.insert, h]
    · simp only [Screen.insert, h, if_false, List.mem_cons, ih]
      exact ⟨fun h => by tauto, fun h => by tauto⟩

/-- The law of a toggle: the cell changes, every other cell is as before. -/
theorem Screen.lit_toggle (scr : Screen) (c d : Nat) :
    Screen.lit (Screen.toggle scr c) d = if d = c then !Screen.lit scr d else Screen.lit scr d := by
  unfold Screen.toggle
  by_cases h : Screen.lit scr c = true
  · simp only [h, if_true]
    simp only [Screen.lit, List.contains_eq_mem] at h ⊢
    by_cases hd : d = c
    · subst hd; simp_all
    · simp [hd]
  · simp only [h, if_false, Bool.false_eq_true]
    simp only [Screen.lit, List.contains_eq_mem] at h ⊢
    by_cases hd : d = c
    · subst hd; simp_all [Screen.mem_insert]
    · simp [hd, Screen.mem_insert]

/-! ### The canonical form -/

theorem Screen.wfFrom_weaken {hi lo lo' : Nat} (h : lo' ≤ lo) :
    ∀ {scr : Screen}, Screen.wfFrom hi lo scr = true → Screen.wfFrom hi lo' scr = true
  | [], _ => rfl
  | c :: rest, hs => by
    simp only [Screen.wfFrom, Bool.and_eq_true, decide_eq_true_eq] at hs ⊢
    exact ⟨⟨by omega, hs.1.2⟩, hs.2⟩

theorem Screen.wfFrom_filter {hi : Nat} (c : Nat) :
    ∀ {scr : Screen} {lo : Nat}, Screen.wfFrom hi lo scr = true →
      Screen.wfFrom hi lo (scr.filter fun d => d != c) = true
  | [], _, _ => rfl
  | d :: rest, lo, hs => by
    simp only [Screen.wfFrom, Bool.and_eq_true, decide_eq_true_eq] at hs
    have ih := Screen.wfFrom_filter c hs.2
    by_cases hd : d = c
    · simp only [hd, List.filter_cons, bne_self_eq_false, Bool.false_eq_true, if_false]
      exact Screen.wfFrom_weaken (by omega) (hd ▸ ih)
    · have : (d != c) = true := by simpa using hd
      simp only [List.filter_cons, this, if_true, Screen.wfFrom, Bool.and_eq_true, decide_eq_true_eq]
      exact ⟨hs.1, ih⟩

theorem Screen.wfFrom_insert {hi c : Nat} (hc : c < hi) :
    ∀ {scr : Screen} {lo : Nat}, lo ≤ c → c ∉ scr → Screen.wfFrom hi lo scr = true →
      Screen.wfFrom hi lo (Screen.insert c scr) = true
  | [], lo, hlo, _, _ => by simp [Screen.insert, Screen.wfFrom, hlo, hc]
  | d :: rest, lo, hlo, hn, hs => by
    simp only [Screen.wfFrom, Bool.and_eq_true, decide_eq_true_eq] at hs
    simp only [List.mem_cons, not_or] at hn
    by_cases hlt : c < d
    · simp only [Screen.insert, hlt, if_true, Screen.wfFrom, Bool.and_eq_true, decide_eq_true_eq]
      exact ⟨⟨hlo, hc⟩, ⟨by omega, hs.1.2⟩, hs.2⟩
    · simp only [Screen.insert, hlt, if_false, Screen.wfFrom, Bool.and_eq_true, decide_eq_true_eq]
      exact ⟨hs.1, Screen.wfFrom_insert hc (by omega) hn.2 hs.2⟩

/-- A toggle of a cell below `hi` keeps the canonical form. -/
theorem Screen.wfFrom_toggle {hi c : Nat} {scr : Screen} (hc : c < hi)
    (hs : Screen.wfFrom hi 0 scr = true) : Screen.wfFrom hi 0 (Screen.toggle scr c) = true := by
  unfold Screen.toggle
  by_cases h : Screen.lit scr c = true
  · simp only [h, if_true]; exact Screen.wfFrom_filter c hs
  · simp only [h, if_false, Bool.false_eq_true]
    exact Screen.wfFrom_insert hc (Nat.zero_le c) (by simpa [Screen.lit] using h) hs

/-- Drawing cells below `hi` keeps the canonical form. -/
theorem drawCells_wfFrom {hi : Nat} :
    ∀ {cs : List Nat} {acc : Screen × Bool}, (∀ c ∈ cs, c < hi) →
      Screen.wfFrom hi 0 acc.1 = true → Screen.wfFrom hi 0 (drawCells cs acc).1 = true
  | [], _, _, hs => hs
  | c :: cs, (scr, hit), h, hs =>
    drawCells_wfFrom (acc := (Screen.toggle scr c, hit || Screen.lit scr c))
      (fun d hd => h d (by simp [hd])) (Screen.wfFrom_toggle (h c (by simp)) hs)

/-- Drawing distinct cells: each named cell changes, every other is as before, and a collision is a
named cell that was lit (R162, R163 (e)). -/
theorem drawCells_nodup :
    ∀ {cs : List Nat} (scr : Screen) (hit : Bool), cs.Nodup →
      (∀ d, Screen.lit (drawCells cs (scr, hit)).1 d =
        if d ∈ cs then !Screen.lit scr d else Screen.lit scr d) ∧
      (drawCells cs (scr, hit)).2 = (hit || cs.any (Screen.lit scr))
  | [], scr, hit, _ => by simp [drawCells]
  | c :: cs, scr, hit, h => by
    obtain ⟨hc, hcs⟩ := List.nodup_cons.1 h
    obtain ⟨h1, h2⟩ := drawCells_nodup (Screen.toggle scr c) (hit || Screen.lit scr c) hcs
    refine ⟨fun d => ?_, ?_⟩
    · simp only [drawCells, h1, Screen.lit_toggle, List.mem_cons]
      by_cases hd : d = c
      · subst hd; simp [hc]
      · simp [hd]
    · simp only [drawCells, h2, List.any_cons, Bool.or_assoc]
      congr 2
      have : ∀ d ∈ cs, Screen.lit (Screen.toggle scr c) d = Screen.lit scr d := by
        intro d hd
        have : d ≠ c := fun e => hc (e ▸ hd)
        simp [Screen.lit_toggle, this]
      rw [Bool.eq_iff_iff, List.any_eq_true, List.any_eq_true]
      exact exists_congr fun d => and_congr_right fun hd => by rw [this d hd]

end Sys2Proof.Machine
end

