-- ==== Sys2Proof/Laws/State.lean ====
section
/-! SUPPORT. One lemma per field per named update of the state, so that no proof unfolds a record update. -/

namespace Sys2Proof.Machine

/-! ### State.setV -/

@[simp] theorem State.setV_V (s : State) (x : Reg) (b : Byte) :
    (s.setV x b).V = s.V.set x.toNat b := rfl
@[simp] theorem State.setV_I (s : State) (x : Reg) (b : Byte) : (s.setV x b).I = s.I := rfl
@[simp] theorem State.setV_PC (s : State) (x : Reg) (b : Byte) : (s.setV x b).PC = s.PC := rfl
@[simp] theorem State.setV_SP (s : State) (x : Reg) (b : Byte) : (s.setV x b).SP = s.SP := rfl
@[simp] theorem State.setV_stack (s : State) (x : Reg) (b : Byte) :
    (s.setV x b).stack = s.stack := rfl
@[simp] theorem State.setV_DT (s : State) (x : Reg) (b : Byte) : (s.setV x b).DT = s.DT := rfl
@[simp] theorem State.setV_ST (s : State) (x : Reg) (b : Byte) : (s.setV x b).ST = s.ST := rfl
@[simp] theorem State.setV_memory (s : State) (x : Reg) (b : Byte) :
    (s.setV x b).memory = s.memory := rfl
@[simp] theorem State.setV_screen (s : State) (x : Reg) (b : Byte) :
    (s.setV x b).screen = s.screen := rfl
@[simp] theorem State.setV_hires (s : State) (x : Reg) (b : Byte) :
    (s.setV x b).hires = s.hires := rfl
@[simp] theorem State.setV_keysDown (s : State) (x : Reg) (b : Byte) :
    (s.setV x b).keysDown = s.keysDown := rfl
@[simp] theorem State.setV_lastKey (s : State) (x : Reg) (b : Byte) :
    (s.setV x b).lastKey = s.lastKey := rfl
@[simp] theorem State.setV_runState (s : State) (x : Reg) (b : Byte) :
    (s.setV x b).runState = s.runState := rfl
@[simp] theorem State.setV_wait (s : State) (x : Reg) (b : Byte) : (s.setV x b).wait = s.wait := rfl
@[simp] theorem State.setV_halt (s : State) (x : Reg) (b : Byte) : (s.setV x b).halt = s.halt := rfl
@[simp] theorem State.setV_msgQueue (s : State) (x : Reg) (b : Byte) :
    (s.setV x b).msgQueue = s.msgQueue := rfl
@[simp] theorem State.setV_schedule (s : State) (x : Reg) (b : Byte) :
    (s.setV x b).schedule = s.schedule := rfl
@[simp] theorem State.setV_draws (s : State) (x : Reg) (b : Byte) :
    (s.setV x b).draws = s.draws := rfl
@[simp] theorem State.setV_reports (s : State) (x : Reg) (b : Byte) :
    (s.setV x b).reports = s.reports := rfl

/-! ### State.setI -/

@[simp] theorem State.setI_V (s : State) (v : Word) : (s.setI v).V = s.V := rfl
@[simp] theorem State.setI_I (s : State) (v : Word) : (s.setI v).I = v := rfl
@[simp] theorem State.setI_PC (s : State) (v : Word) : (s.setI v).PC = s.PC := rfl
@[simp] theorem State.setI_SP (s : State) (v : Word) : (s.setI v).SP = s.SP := rfl
@[simp] theorem State.setI_stack (s : State) (v : Word) : (s.setI v).stack = s.stack := rfl
@[simp] theorem State.setI_DT (s : State) (v : Word) : (s.setI v).DT = s.DT := rfl
@[simp] theorem State.setI_ST (s : State) (v : Word) : (s.setI v).ST = s.ST := rfl
@[simp] theorem State.setI_memory (s : State) (v : Word) : (s.setI v).memory = s.memory := rfl
@[simp] theorem State.setI_screen (s : State) (v : Word) : (s.setI v).screen = s.screen := rfl
@[simp] theorem State.setI_hires (s : State) (v : Word) : (s.setI v).hires = s.hires := rfl
@[simp] theorem State.setI_keysDown (s : State) (v : Word) : (s.setI v).keysDown = s.keysDown := rfl
@[simp] theorem State.setI_lastKey (s : State) (v : Word) : (s.setI v).lastKey = s.lastKey := rfl
@[simp] theorem State.setI_runState (s : State) (v : Word) : (s.setI v).runState = s.runState := rfl
@[simp] theorem State.setI_wait (s : State) (v : Word) : (s.setI v).wait = s.wait := rfl
@[simp] theorem State.setI_halt (s : State) (v : Word) : (s.setI v).halt = s.halt := rfl
@[simp] theorem State.setI_msgQueue (s : State) (v : Word) : (s.setI v).msgQueue = s.msgQueue := rfl
@[simp] theorem State.setI_schedule (s : State) (v : Word) : (s.setI v).schedule = s.schedule := rfl
@[simp] theorem State.setI_draws (s : State) (v : Word) : (s.setI v).draws = s.draws := rfl
@[simp] theorem State.setI_reports (s : State) (v : Word) : (s.setI v).reports = s.reports := rfl
@[simp] theorem State.setI_v (s : State) (v : Word) (r : Reg) : (s.setI v).v r = s.v r := rfl

/-! ### State.setDT -/

@[simp] theorem State.setDT_V (s : State) (v : Byte) : (s.setDT v).V = s.V := rfl
@[simp] theorem State.setDT_I (s : State) (v : Byte) : (s.setDT v).I = s.I := rfl
@[simp] theorem State.setDT_PC (s : State) (v : Byte) : (s.setDT v).PC = s.PC := rfl
@[simp] theorem State.setDT_SP (s : State) (v : Byte) : (s.setDT v).SP = s.SP := rfl
@[simp] theorem State.setDT_stack (s : State) (v : Byte) : (s.setDT v).stack = s.stack := rfl
@[simp] theorem State.setDT_DT (s : State) (v : Byte) : (s.setDT v).DT = v := rfl
@[simp] theorem State.setDT_ST (s : State) (v : Byte) : (s.setDT v).ST = s.ST := rfl
@[simp] theorem State.setDT_memory (s : State) (v : Byte) : (s.setDT v).memory = s.memory := rfl
@[simp] theorem State.setDT_screen (s : State) (v : Byte) : (s.setDT v).screen = s.screen := rfl
@[simp] theorem State.setDT_hires (s : State) (v : Byte) : (s.setDT v).hires = s.hires := rfl
@[simp] theorem State.setDT_keysDown (s : State) (v : Byte) :
    (s.setDT v).keysDown = s.keysDown := rfl
@[simp] theorem State.setDT_lastKey (s : State) (v : Byte) : (s.setDT v).lastKey = s.lastKey := rfl
@[simp] theorem State.setDT_runState (s : State) (v : Byte) :
    (s.setDT v).runState = s.runState := rfl
@[simp] theorem State.setDT_wait (s : State) (v : Byte) : (s.setDT v).wait = s.wait := rfl
@[simp] theorem State.setDT_halt (s : State) (v : Byte) : (s.setDT v).halt = s.halt := rfl
@[simp] theorem State.setDT_msgQueue (s : State) (v : Byte) :
    (s.setDT v).msgQueue = s.msgQueue := rfl
@[simp] theorem State.setDT_schedule (s : State) (v : Byte) :
    (s.setDT v).schedule = s.schedule := rfl
@[simp] theorem State.setDT_draws (s : State) (v : Byte) : (s.setDT v).draws = s.draws := rfl
@[simp] theorem State.setDT_reports (s : State) (v : Byte) : (s.setDT v).reports = s.reports := rfl
@[simp] theorem State.setDT_v (s : State) (v : Byte) (r : Reg) : (s.setDT v).v r = s.v r := rfl

/-! ### State.setST -/

@[simp] theorem State.setST_V (s : State) (v : Byte) : (s.setST v).V = s.V := rfl
@[simp] theorem State.setST_I (s : State) (v : Byte) : (s.setST v).I = s.I := rfl
@[simp] theorem State.setST_PC (s : State) (v : Byte) : (s.setST v).PC = s.PC := rfl
@[simp] theorem State.setST_SP (s : State) (v : Byte) : (s.setST v).SP = s.SP := rfl
@[simp] theorem State.setST_stack (s : State) (v : Byte) : (s.setST v).stack = s.stack := rfl
@[simp] theorem State.setST_DT (s : State) (v : Byte) : (s.setST v).DT = s.DT := rfl
@[simp] theorem State.setST_ST (s : State) (v : Byte) : (s.setST v).ST = v := rfl
@[simp] theorem State.setST_memory (s : State) (v : Byte) : (s.setST v).memory = s.memory := rfl
@[simp] theorem State.setST_screen (s : State) (v : Byte) : (s.setST v).screen = s.screen := rfl
@[simp] theorem State.setST_hires (s : State) (v : Byte) : (s.setST v).hires = s.hires := rfl
@[simp] theorem State.setST_keysDown (s : State) (v : Byte) :
    (s.setST v).keysDown = s.keysDown := rfl
@[simp] theorem State.setST_lastKey (s : State) (v : Byte) : (s.setST v).lastKey = s.lastKey := rfl
@[simp] theorem State.setST_runState (s : State) (v : Byte) :
    (s.setST v).runState = s.runState := rfl
@[simp] theorem State.setST_wait (s : State) (v : Byte) : (s.setST v).wait = s.wait := rfl
@[simp] theorem State.setST_halt (s : State) (v : Byte) : (s.setST v).halt = s.halt := rfl
@[simp] theorem State.setST_msgQueue (s : State) (v : Byte) :
    (s.setST v).msgQueue = s.msgQueue := rfl
@[simp] theorem State.setST_schedule (s : State) (v : Byte) :
    (s.setST v).schedule = s.schedule := rfl
@[simp] theorem State.setST_draws (s : State) (v : Byte) : (s.setST v).draws = s.draws := rfl
@[simp] theorem State.setST_reports (s : State) (v : Byte) : (s.setST v).reports = s.reports := rfl
@[simp] theorem State.setST_v (s : State) (v : Byte) (r : Reg) : (s.setST v).v r = s.v r := rfl

/-! ### State.setScreen -/

@[simp] theorem State.setScreen_V (s : State) (scr : Screen) : (s.setScreen scr).V = s.V := rfl
@[simp] theorem State.setScreen_I (s : State) (scr : Screen) : (s.setScreen scr).I = s.I := rfl
@[simp] theorem State.setScreen_PC (s : State) (scr : Screen) : (s.setScreen scr).PC = s.PC := rfl
@[simp] theorem State.setScreen_SP (s : State) (scr : Screen) : (s.setScreen scr).SP = s.SP := rfl
@[simp] theorem State.setScreen_stack (s : State) (scr : Screen) :
    (s.setScreen scr).stack = s.stack := rfl
@[simp] theorem State.setScreen_DT (s : State) (scr : Screen) : (s.setScreen scr).DT = s.DT := rfl
@[simp] theorem State.setScreen_ST (s : State) (scr : Screen) : (s.setScreen scr).ST = s.ST := rfl
@[simp] theorem State.setScreen_memory (s : State) (scr : Screen) :
    (s.setScreen scr).memory = s.memory := rfl
@[simp] theorem State.setScreen_screen (s : State) (scr : Screen) :
    (s.setScreen scr).screen = scr := rfl
@[simp] theorem State.setScreen_hires (s : State) (scr : Screen) :
    (s.setScreen scr).hires = s.hires := rfl
@[simp] theorem State.setScreen_keysDown (s : State) (scr : Screen) :
    (s.setScreen scr).keysDown = s.keysDown := rfl
@[simp] theorem State.setScreen_lastKey (s : State) (scr : Screen) :
    (s.setScreen scr).lastKey = s.lastKey := rfl
@[simp] theorem State.setScreen_runState (s : State) (scr : Screen) :
    (s.setScreen scr).runState = s.runState := rfl
@[simp] theorem State.setScreen_wait (s : State) (scr : Screen) :
    (s.setScreen scr).wait = s.wait := rfl
@[simp] theorem State.setScreen_halt (s : State) (scr : Screen) :
    (s.setScreen scr).halt = s.halt := rfl
@[simp] theorem State.setScreen_msgQueue (s : State) (scr : Screen) :
    (s.setScreen scr).msgQueue = s.msgQueue := rfl
@[simp] theorem State.setScreen_schedule (s : State) (scr : Screen) :
    (s.setScreen scr).schedule = s.schedule := rfl
@[simp] theorem State.setScreen_draws (s : State) (scr : Screen) :
    (s.setScreen scr).draws = s.draws := rfl
@[simp] theorem State.setScreen_reports (s : State) (scr : Screen) :
    (s.setScreen scr).reports = s.reports := rfl
@[simp] theorem State.setScreen_v (s : State) (scr : Screen) (r : Reg) : (s.setScreen scr).v r = s.v r := rfl

/-! ### State.setMemory -/

@[simp] theorem State.setMemory_V (s : State) (m : Memory) : (s.setMemory m).V = s.V := rfl
@[simp] theorem State.setMemory_I (s : State) (m : Memory) : (s.setMemory m).I = s.I := rfl
@[simp] theorem State.setMemory_PC (s : State) (m : Memory) : (s.setMemory m).PC = s.PC := rfl
@[simp] theorem State.setMemory_SP (s : State) (m : Memory) : (s.setMemory m).SP = s.SP := rfl
@[simp] theorem State.setMemory_stack (s : State) (m : Memory) :
    (s.setMemory m).stack = s.stack := rfl
@[simp] theorem State.setMemory_DT (s : State) (m : Memory) : (s.setMemory m).DT = s.DT := rfl
@[simp] theorem State.setMemory_ST (s : State) (m : Memory) : (s.setMemory m).ST = s.ST := rfl
@[simp] theorem State.setMemory_memory (s : State) (m : Memory) : (s.setMemory m).memory = m := rfl
@[simp] theorem State.setMemory_screen (s : State) (m : Memory) :
    (s.setMemory m).screen = s.screen := rfl
@[simp] theorem State.setMemory_hires (s : State) (m : Memory) :
    (s.setMemory m).hires = s.hires := rfl
@[simp] theorem State.setMemory_keysDown (s : State) (m : Memory) :
    (s.setMemory m).keysDown = s.keysDown := rfl
@[simp] theorem State.setMemory_lastKey (s : State) (m : Memory) :
    (s.setMemory m).lastKey = s.lastKey := rfl
@[simp] theorem State.setMemory_runState (s : State) (m : Memory) :
    (s.setMemory m).runState = s.runState := rfl
@[simp] theorem State.setMemory_wait (s : State) (m : Memory) : (s.setMemory m).wait = s.wait := rfl
@[simp] theorem State.setMemory_halt (s : State) (m : Memory) : (s.setMemory m).halt = s.halt := rfl
@[simp] theorem State.setMemory_msgQueue (s : State) (m : Memory) :
    (s.setMemory m).msgQueue = s.msgQueue := rfl
@[simp] theorem State.setMemory_schedule (s : State) (m : Memory) :
    (s.setMemory m).schedule = s.schedule := rfl
@[simp] theorem State.setMemory_draws (s : State) (m : Memory) :
    (s.setMemory m).draws = s.draws := rfl
@[simp] theorem State.setMemory_reports (s : State) (m : Memory) :
    (s.setMemory m).reports = s.reports := rfl
@[simp] theorem State.setMemory_v (s : State) (m : Memory) (r : Reg) : (s.setMemory m).v r = s.v r := rfl

/-! ### State.setWait -/

@[simp] theorem State.setWait_V (s : State) (w : WaitState) : (s.setWait w).V = s.V := rfl
@[simp] theorem State.setWait_I (s : State) (w : WaitState) : (s.setWait w).I = s.I := rfl
@[simp] theorem State.setWait_PC (s : State) (w : WaitState) : (s.setWait w).PC = s.PC := rfl
@[simp] theorem State.setWait_SP (s : State) (w : WaitState) : (s.setWait w).SP = s.SP := rfl
@[simp] theorem State.setWait_stack (s : State) (w : WaitState) :
    (s.setWait w).stack = s.stack := rfl
@[simp] theorem State.setWait_DT (s : State) (w : WaitState) : (s.setWait w).DT = s.DT := rfl
@[simp] theorem State.setWait_ST (s : State) (w : WaitState) : (s.setWait w).ST = s.ST := rfl
@[simp] theorem State.setWait_memory (s : State) (w : WaitState) :
    (s.setWait w).memory = s.memory := rfl
@[simp] theorem State.setWait_screen (s : State) (w : WaitState) :
    (s.setWait w).screen = s.screen := rfl
@[simp] theorem State.setWait_hires (s : State) (w : WaitState) :
    (s.setWait w).hires = s.hires := rfl
@[simp] theorem State.setWait_keysDown (s : State) (w : WaitState) :
    (s.setWait w).keysDown = s.keysDown := rfl
@[simp] theorem State.setWait_lastKey (s : State) (w : WaitState) :
    (s.setWait w).lastKey = s.lastKey := rfl
@[simp] theorem State.setWait_runState (s : State) (w : WaitState) :
    (s.setWait w).runState = s.runState := rfl
@[simp] theorem State.setWait_wait (s : State) (w : WaitState) : (s.setWait w).wait = w := rfl
@[simp] theorem State.setWait_halt (s : State) (w : WaitState) : (s.setWait w).halt = s.halt := rfl
@[simp] theorem State.setWait_msgQueue (s : State) (w : WaitState) :
    (s.setWait w).msgQueue = s.msgQueue := rfl
@[simp] theorem State.setWait_schedule (s : State) (w : WaitState) :
    (s.setWait w).schedule = s.schedule := rfl
@[simp] theorem State.setWait_draws (s : State) (w : WaitState) :
    (s.setWait w).draws = s.draws := rfl
@[simp] theorem State.setWait_reports (s : State) (w : WaitState) :
    (s.setWait w).reports = s.reports := rfl
@[simp] theorem State.setWait_v (s : State) (w : WaitState) (r : Reg) : (s.setWait w).v r = s.v r := rfl

/-! ### State.countDraw -/

@[simp] theorem State.countDraw_V (s : State) : (s.countDraw).V = s.V := rfl
@[simp] theorem State.countDraw_I (s : State) : (s.countDraw).I = s.I := rfl
@[simp] theorem State.countDraw_PC (s : State) : (s.countDraw).PC = s.PC := rfl
@[simp] theorem State.countDraw_SP (s : State) : (s.countDraw).SP = s.SP := rfl
@[simp] theorem State.countDraw_stack (s : State) : (s.countDraw).stack = s.stack := rfl
@[simp] theorem State.countDraw_DT (s : State) : (s.countDraw).DT = s.DT := rfl
@[simp] theorem State.countDraw_ST (s : State) : (s.countDraw).ST = s.ST := rfl
@[simp] theorem State.countDraw_memory (s : State) : (s.countDraw).memory = s.memory := rfl
@[simp] theorem State.countDraw_screen (s : State) : (s.countDraw).screen = s.screen := rfl
@[simp] theorem State.countDraw_hires (s : State) : (s.countDraw).hires = s.hires := rfl
@[simp] theorem State.countDraw_keysDown (s : State) : (s.countDraw).keysDown = s.keysDown := rfl
@[simp] theorem State.countDraw_lastKey (s : State) : (s.countDraw).lastKey = s.lastKey := rfl
@[simp] theorem State.countDraw_runState (s : State) : (s.countDraw).runState = s.runState := rfl
@[simp] theorem State.countDraw_wait (s : State) : (s.countDraw).wait = s.wait := rfl
@[simp] theorem State.countDraw_halt (s : State) : (s.countDraw).halt = s.halt := rfl
@[simp] theorem State.countDraw_msgQueue (s : State) : (s.countDraw).msgQueue = s.msgQueue := rfl
@[simp] theorem State.countDraw_schedule (s : State) : (s.countDraw).schedule = s.schedule := rfl
@[simp] theorem State.countDraw_draws (s : State) : (s.countDraw).draws = s.draws + 1 := rfl
@[simp] theorem State.countDraw_reports (s : State) : (s.countDraw).reports = s.reports := rfl
@[simp] theorem State.countDraw_v (s : State) (r : Reg) : (s.countDraw).v r = s.v r := rfl

/-! ### State.advance -/

@[simp] theorem State.advance_V (s : State) : (s.advance).V = s.V := rfl
@[simp] theorem State.advance_I (s : State) : (s.advance).I = s.I := rfl
@[simp] theorem State.advance_PC (s : State) : (s.advance).PC = s.PC + 2 := rfl
@[simp] theorem State.advance_SP (s : State) : (s.advance).SP = s.SP := rfl
@[simp] theorem State.advance_stack (s : State) : (s.advance).stack = s.stack := rfl
@[simp] theorem State.advance_DT (s : State) : (s.advance).DT = s.DT := rfl
@[simp] theorem State.advance_ST (s : State) : (s.advance).ST = s.ST := rfl
@[simp] theorem State.advance_memory (s : State) : (s.advance).memory = s.memory := rfl
@[simp] theorem State.advance_screen (s : State) : (s.advance).screen = s.screen := rfl
@[simp] theorem State.advance_hires (s : State) : (s.advance).hires = s.hires := rfl
@[simp] theorem State.advance_keysDown (s : State) : (s.advance).keysDown = s.keysDown := rfl
@[simp] theorem State.advance_lastKey (s : State) : (s.advance).lastKey = s.lastKey := rfl
@[simp] theorem State.advance_runState (s : State) : (s.advance).runState = s.runState := rfl
@[simp] theorem State.advance_wait (s : State) : (s.advance).wait = s.wait := rfl
@[simp] theorem State.advance_halt (s : State) : (s.advance).halt = s.halt := rfl
@[simp] theorem State.advance_msgQueue (s : State) : (s.advance).msgQueue = s.msgQueue := rfl
@[simp] theorem State.advance_schedule (s : State) : (s.advance).schedule = s.schedule := rfl
@[simp] theorem State.advance_draws (s : State) : (s.advance).draws = s.draws := rfl
@[simp] theorem State.advance_reports (s : State) : (s.advance).reports = s.reports := rfl
@[simp] theorem State.advance_v (s : State) (r : Reg) : (s.advance).v r = s.v r := rfl

/-! ### State.jump -/

@[simp] theorem State.jump_V (s : State) (target : Word) : (s.jump target).V = s.V := rfl
@[simp] theorem State.jump_I (s : State) (target : Word) : (s.jump target).I = s.I := rfl
@[simp] theorem State.jump_PC (s : State) (target : Word) : (s.jump target).PC = target := rfl
@[simp] theorem State.jump_SP (s : State) (target : Word) : (s.jump target).SP = s.SP := rfl
@[simp] theorem State.jump_stack (s : State) (target : Word) :
    (s.jump target).stack = s.stack := rfl
@[simp] theorem State.jump_DT (s : State) (target : Word) : (s.jump target).DT = s.DT := rfl
@[simp] theorem State.jump_ST (s : State) (target : Word) : (s.jump target).ST = s.ST := rfl
@[simp] theorem State.jump_memory (s : State) (target : Word) :
    (s.jump target).memory = s.memory := rfl
@[simp] theorem State.jump_screen (s : State) (target : Word) :
    (s.jump target).screen = s.screen := rfl
@[simp] theorem State.jump_hires (s : State) (target : Word) :
    (s.jump target).hires = s.hires := rfl
@[simp] theorem State.jump_keysDown (s : State) (target : Word) :
    (s.jump target).keysDown = s.keysDown := rfl
@[simp] theorem State.jump_lastKey (s : State) (target : Word) :
    (s.jump target).lastKey = s.lastKey := rfl
@[simp] theorem State.jump_runState (s : State) (target : Word) :
    (s.jump target).runState = s.runState := rfl
@[simp] theorem State.jump_wait (s : State) (target : Word) : (s.jump target).wait = s.wait := rfl
@[simp] theorem State.jump_halt (s : State) (target : Word) : (s.jump target).halt = s.halt := rfl
@[simp] theorem State.jump_msgQueue (s : State) (target : Word) :
    (s.jump target).msgQueue = s.msgQueue := rfl
@[simp] theorem State.jump_schedule (s : State) (target : Word) :
    (s.jump target).schedule = s.schedule := rfl
@[simp] theorem State.jump_draws (s : State) (target : Word) :
    (s.jump target).draws = s.draws := rfl
@[simp] theorem State.jump_reports (s : State) (target : Word) :
    (s.jump target).reports = s.reports := rfl
@[simp] theorem State.jump_v (s : State) (target : Word) (r : Reg) : (s.jump target).v r = s.v r := rfl

/-! ### State.push -/

@[simp] theorem State.push_V (s : State) (ra : Word) : (s.push ra).V = s.V := rfl
@[simp] theorem State.push_I (s : State) (ra : Word) : (s.push ra).I = s.I := rfl
@[simp] theorem State.push_PC (s : State) (ra : Word) : (s.push ra).PC = s.PC := rfl
@[simp] theorem State.push_SP (s : State) (ra : Word) : (s.push ra).SP = s.SP + 1 := rfl
@[simp] theorem State.push_stack (s : State) (ra : Word) :
    (s.push ra).stack = s.stack.setIfInBounds (s.SP + 1).toNat ra := rfl
@[simp] theorem State.push_DT (s : State) (ra : Word) : (s.push ra).DT = s.DT := rfl
@[simp] theorem State.push_ST (s : State) (ra : Word) : (s.push ra).ST = s.ST := rfl
@[simp] theorem State.push_memory (s : State) (ra : Word) : (s.push ra).memory = s.memory := rfl
@[simp] theorem State.push_screen (s : State) (ra : Word) : (s.push ra).screen = s.screen := rfl
@[simp] theorem State.push_hires (s : State) (ra : Word) : (s.push ra).hires = s.hires := rfl
@[simp] theorem State.push_keysDown (s : State) (ra : Word) :
    (s.push ra).keysDown = s.keysDown := rfl
@[simp] theorem State.push_lastKey (s : State) (ra : Word) : (s.push ra).lastKey = s.lastKey := rfl
@[simp] theorem State.push_runState (s : State) (ra : Word) :
    (s.push ra).runState = s.runState := rfl
@[simp] theorem State.push_wait (s : State) (ra : Word) : (s.push ra).wait = s.wait := rfl
@[simp] theorem State.push_halt (s : State) (ra : Word) : (s.push ra).halt = s.halt := rfl
@[simp] theorem State.push_msgQueue (s : State) (ra : Word) :
    (s.push ra).msgQueue = s.msgQueue := rfl
@[simp] theorem State.push_schedule (s : State) (ra : Word) :
    (s.push ra).schedule = s.schedule := rfl
@[simp] theorem State.push_draws (s : State) (ra : Word) : (s.push ra).draws = s.draws := rfl
@[simp] theorem State.push_reports (s : State) (ra : Word) : (s.push ra).reports = s.reports := rfl
@[simp] theorem State.push_v (s : State) (ra : Word) (r : Reg) : (s.push ra).v r = s.v r := rfl

/-! ### State.pop -/

@[simp] theorem State.pop_V (s : State) : (s.pop).V = s.V := rfl
@[simp] theorem State.pop_I (s : State) : (s.pop).I = s.I := rfl
@[simp] theorem State.pop_PC (s : State) : (s.pop).PC = s.PC := rfl
@[simp] theorem State.pop_SP (s : State) : (s.pop).SP = s.SP - 1 := rfl
@[simp] theorem State.pop_stack (s : State) : (s.pop).stack = s.stack := rfl
@[simp] theorem State.pop_DT (s : State) : (s.pop).DT = s.DT := rfl
@[simp] theorem State.pop_ST (s : State) : (s.pop).ST = s.ST := rfl
@[simp] theorem State.pop_memory (s : State) : (s.pop).memory = s.memory := rfl
@[simp] theorem State.pop_screen (s : State) : (s.pop).screen = s.screen := rfl
@[simp] theorem State.pop_hires (s : State) : (s.pop).hires = s.hires := rfl
@[simp] theorem State.pop_keysDown (s : State) : (s.pop).keysDown = s.keysDown := rfl
@[simp] theorem State.pop_lastKey (s : State) : (s.pop).lastKey = s.lastKey := rfl
@[simp] theorem State.pop_runState (s : State) : (s.pop).runState = s.runState := rfl
@[simp] theorem State.pop_wait (s : State) : (s.pop).wait = s.wait := rfl
@[simp] theorem State.pop_halt (s : State) : (s.pop).halt = s.halt := rfl
@[simp] theorem State.pop_msgQueue (s : State) : (s.pop).msgQueue = s.msgQueue := rfl
@[simp] theorem State.pop_schedule (s : State) : (s.pop).schedule = s.schedule := rfl
@[simp] theorem State.pop_draws (s : State) : (s.pop).draws = s.draws := rfl
@[simp] theorem State.pop_reports (s : State) : (s.pop).reports = s.reports := rfl
@[simp] theorem State.pop_v (s : State) (r : Reg) : (s.pop).v r = s.v r := rfl

/-! ### State.raise -/

@[simp] theorem State.raise_V (s : State) (c : Cause) (w : Word) : (s.raise c w).V = s.V := rfl
@[simp] theorem State.raise_I (s : State) (c : Cause) (w : Word) : (s.raise c w).I = s.I := rfl
@[simp] theorem State.raise_PC (s : State) (c : Cause) (w : Word) : (s.raise c w).PC = s.PC := rfl
@[simp] theorem State.raise_SP (s : State) (c : Cause) (w : Word) : (s.raise c w).SP = s.SP := rfl
@[simp] theorem State.raise_stack (s : State) (c : Cause) (w : Word) :
    (s.raise c w).stack = s.stack := rfl
@[simp] theorem State.raise_DT (s : State) (c : Cause) (w : Word) : (s.raise c w).DT = s.DT := rfl
@[simp] theorem State.raise_ST (s : State) (c : Cause) (w : Word) : (s.raise c w).ST = s.ST := rfl
@[simp] theorem State.raise_memory (s : State) (c : Cause) (w : Word) :
    (s.raise c w).memory = s.memory := rfl
@[simp] theorem State.raise_screen (s : State) (c : Cause) (w : Word) :
    (s.raise c w).screen = s.screen := rfl
@[simp] theorem State.raise_hires (s : State) (c : Cause) (w : Word) :
    (s.raise c w).hires = s.hires := rfl
@[simp] theorem State.raise_keysDown (s : State) (c : Cause) (w : Word) :
    (s.raise c w).keysDown = s.keysDown := rfl
@[simp] theorem State.raise_lastKey (s : State) (c : Cause) (w : Word) :
    (s.raise c w).lastKey = s.lastKey := rfl
@[simp] theorem State.raise_runState (s : State) (c : Cause) (w : Word) :
    (s.raise c w).runState = s.runState := rfl
@[simp] theorem State.raise_wait (s : State) (c : Cause) (w : Word) :
    (s.raise c w).wait = s.wait := rfl
@[simp] theorem State.raise_halt (s : State) (c : Cause) (w : Word) :
    (s.raise c w).halt = some { cause := c, addr := s.PC, word := w } := rfl
@[simp] theorem State.raise_msgQueue (s : State) (c : Cause) (w : Word) :
    (s.raise c w).msgQueue = s.msgQueue := rfl
@[simp] theorem State.raise_schedule (s : State) (c : Cause) (w : Word) :
    (s.raise c w).schedule = s.schedule := rfl
@[simp] theorem State.raise_draws (s : State) (c : Cause) (w : Word) :
    (s.raise c w).draws = s.draws := rfl
@[simp] theorem State.raise_reports (s : State) (c : Cause) (w : Word) :
    (s.raise c w).reports = s.reports := rfl
@[simp] theorem State.raise_v (s : State) (c : Cause) (w : Word) (r : Reg) : (s.raise c w).v r = s.v r := rfl

/-! ### Register reads -/

/-- A register reads what was last written to it; the others are unchanged. -/
theorem State.v_setV (s : State) (x r : Reg) (b : Byte) :
    (s.setV x b).v r = if r = x then b else s.v r := by
  simp only [State.v, State.setV, Vector.getElem_set]
  by_cases h : r = x
  · simp [h]
  · have : x.toNat ≠ r.toNat := fun e => h (BitVec.eq_of_toNat_eq e.symm)
    simp [h, this]

@[simp] theorem State.v_setV_same (s : State) (x : Reg) (b : Byte) : (s.setV x b).v x = b := by
  simp [State.v_setV]

theorem State.v_setV_other (s : State) {x r : Reg} (b : Byte) (h : r ≠ x) :
    (s.setV x b).v r = s.v r := by
  simp [State.v_setV, h]

/-- A register by its number and by its name. -/
theorem State.getElem_V (s : State) (r : Reg) : s.V[r.toNat] = s.v r := rfl

/-- A flag and a result: the result wins where the destination is `VF` (R108). -/
theorem State.v_setFlagThenResult (s : State) (x r : Reg) (flag : Bool) (b : Byte) :
    (s.setFlagThenResult x flag b).v r =
      if r = x then b else if r = regF then flagByte flag else s.v r := by
  simp [State.setFlagThenResult, State.v_setV]

/-- A skip only moves `PC`. -/
theorem State.skipIf_eq (s : State) (c : Bool) :
    s.skipIf c = s.jump (if c then s.PC + 4 else s.PC + 2) := by
  cases c <;> rfl

/-! ### State.resetUnder: all but the memory as `State.reset` -/

@[simp] theorem State.resetUnder_V (font : Font) :
    (State.resetUnder font).V = State.reset.V := rfl
@[simp] theorem State.resetUnder_I (font : Font) :
    (State.resetUnder font).I = State.reset.I := rfl
@[simp] theorem State.resetUnder_PC (font : Font) :
    (State.resetUnder font).PC = State.reset.PC := rfl
@[simp] theorem State.resetUnder_SP (font : Font) :
    (State.resetUnder font).SP = State.reset.SP := rfl
@[simp] theorem State.resetUnder_stack (font : Font) :
    (State.resetUnder font).stack = State.reset.stack := rfl
@[simp] theorem State.resetUnder_DT (font : Font) :
    (State.resetUnder font).DT = State.reset.DT := rfl
@[simp] theorem State.resetUnder_ST (font : Font) :
    (State.resetUnder font).ST = State.reset.ST := rfl
@[simp] theorem State.resetUnder_screen (font : Font) :
    (State.resetUnder font).screen = State.reset.screen := rfl
@[simp] theorem State.resetUnder_hires (font : Font) :
    (State.resetUnder font).hires = State.reset.hires := rfl
@[simp] theorem State.resetUnder_keysDown (font : Font) :
    (State.resetUnder font).keysDown = State.reset.keysDown := rfl
@[simp] theorem State.resetUnder_lastKey (font : Font) :
    (State.resetUnder font).lastKey = State.reset.lastKey := rfl
@[simp] theorem State.resetUnder_runState (font : Font) :
    (State.resetUnder font).runState = State.reset.runState := rfl
@[simp] theorem State.resetUnder_wait (font : Font) :
    (State.resetUnder font).wait = State.reset.wait := rfl
@[simp] theorem State.resetUnder_halt (font : Font) :
    (State.resetUnder font).halt = State.reset.halt := rfl
@[simp] theorem State.resetUnder_msgQueue (font : Font) :
    (State.resetUnder font).msgQueue = State.reset.msgQueue := rfl
@[simp] theorem State.resetUnder_schedule (font : Font) :
    (State.resetUnder font).schedule = State.reset.schedule := rfl
@[simp] theorem State.resetUnder_draws (font : Font) :
    (State.resetUnder font).draws = State.reset.draws := rfl
@[simp] theorem State.resetUnder_reports (font : Font) :
    (State.resetUnder font).reports = State.reset.reports := rfl

/-! ### State.resetMachineUnder -/

@[simp] theorem State.resetMachineUnder_V (font : Font) (s : State) :
    (s.resetMachineUnder font).V = State.reset.V := rfl
@[simp] theorem State.resetMachineUnder_I (font : Font) (s : State) :
    (s.resetMachineUnder font).I = State.reset.I := rfl
@[simp] theorem State.resetMachineUnder_PC (font : Font) (s : State) :
    (s.resetMachineUnder font).PC = State.reset.PC := rfl
@[simp] theorem State.resetMachineUnder_SP (font : Font) (s : State) :
    (s.resetMachineUnder font).SP = State.reset.SP := rfl
@[simp] theorem State.resetMachineUnder_stack (font : Font) (s : State) :
    (s.resetMachineUnder font).stack = State.reset.stack := rfl
@[simp] theorem State.resetMachineUnder_DT (font : Font) (s : State) :
    (s.resetMachineUnder font).DT = State.reset.DT := rfl
@[simp] theorem State.resetMachineUnder_ST (font : Font) (s : State) :
    (s.resetMachineUnder font).ST = State.reset.ST := rfl
@[simp] theorem State.resetMachineUnder_memory (font : Font) (s : State) :
    (s.resetMachineUnder font).memory = (State.resetUnder font).memory := rfl
@[simp] theorem State.resetMachineUnder_screen (font : Font) (s : State) :
    (s.resetMachineUnder font).screen = State.reset.screen := rfl
@[simp] theorem State.resetMachineUnder_hires (font : Font) (s : State) :
    (s.resetMachineUnder font).hires = State.reset.hires := rfl
@[simp] theorem State.resetMachineUnder_keysDown (font : Font) (s : State) :
    (s.resetMachineUnder font).keysDown = State.reset.keysDown := rfl
@[simp] theorem State.resetMachineUnder_lastKey (font : Font) (s : State) :
    (s.resetMachineUnder font).lastKey = State.reset.lastKey := rfl
@[simp] theorem State.resetMachineUnder_runState (font : Font) (s : State) :
    (s.resetMachineUnder font).runState = s.runState := rfl
@[simp] theorem State.resetMachineUnder_wait (font : Font) (s : State) :
    (s.resetMachineUnder font).wait = State.reset.wait := rfl
@[simp] theorem State.resetMachineUnder_halt (font : Font) (s : State) :
    (s.resetMachineUnder font).halt = State.reset.halt := rfl
@[simp] theorem State.resetMachineUnder_msgQueue (font : Font) (s : State) :
    (s.resetMachineUnder font).msgQueue = s.msgQueue := rfl
@[simp] theorem State.resetMachineUnder_schedule (font : Font) (s : State) :
    (s.resetMachineUnder font).schedule = s.schedule := rfl
@[simp] theorem State.resetMachineUnder_draws (font : Font) (s : State) :
    (s.resetMachineUnder font).draws = s.draws := rfl
@[simp] theorem State.resetMachineUnder_reports (font : Font) (s : State) :
    (s.resetMachineUnder font).reports = s.reports := rfl

end Sys2Proof.Machine
end

