-- ==== Sys2Proof/Laws/Ops.lean ====
section
/-! SUPPORT. One lemma per shared operation: everything it can answer, so that no proof unfolds it again. -/

namespace Sys2Proof.Machine

/-! ### Taking a fatal condition after a memory access (R57, R109) -/

/-- A load: either `AddressOutOfRange` with nothing else changed, or the continuation on the bytes. -/
theorem State.orAddressFault_memRead (s : State) (w : Word) (a n : Nat) (k : List Byte → State) :
    (1 ≤ n ∧ 0x1000 < a + n ∧
      s.orAddressFault w (s.memRead a n) k = s.raise (.addressOutOfRange (max a 0x1000)) w) ∨
    ((n = 0 ∨ a + n ≤ 0x1000) ∧
      s.orAddressFault w (s.memRead a n) k = k (Memory.readBytes s.memory a n)) := by
  rcases s.memRead_cases a n with ⟨h1, h2, h⟩ | ⟨h1, h⟩
  · exact .inl ⟨h1, h2, by rw [h]; rfl⟩
  · exact .inr ⟨h1, by rw [h]; rfl⟩

/-- A store: either `AddressOutOfRange` with nothing stored, or every byte stored. -/
theorem State.orAddressFault_memWrite (s : State) (w : Word) (a : Nat) (bs : List Byte)
    (k : State → State) :
    (1 ≤ bs.length ∧ 0x1000 < a + bs.length ∧
      s.orAddressFault w (s.memWrite a bs) k = s.raise (.addressOutOfRange (max a 0x1000)) w) ∨
    ((bs.length = 0 ∨ a + bs.length ≤ 0x1000) ∧
      s.orAddressFault w (s.memWrite a bs) k =
        k (s.setMemory (Memory.writeBytes s.memory a bs))) := by
  rcases s.memWrite_cases a bs with ⟨h1, h2, h⟩ | ⟨h1, h⟩
  · exact .inl ⟨h1, h2, by rw [h]; rfl⟩
  · exact .inr ⟨h1, by rw [h]; rfl⟩

/-! ### The register block (R187, R188) -/

@[simp] theorem State.length_regBlock (s : State) (x : Reg) : (s.regBlock x).length = x.toNat + 1 := by
  have := x.isLt
  simp only [State.regBlock, List.length_take, Vector.length_toList]
  omega

@[simp] theorem State.getElem_regBlock (s : State) (x : Reg) (k : Nat)
    (h : k < (s.regBlock x).length) :
    (s.regBlock x)[k] = s.V[k]'(by have := x.isLt; simp at h; omega) := by
  simp [State.regBlock]

/-- A block load changes `V` only, and of `V` only the registers loaded. -/
theorem State.loadBlock_spec (bs : List Byte) (s : State) (k : Nat) :
    ∃ V', s.loadBlock k bs = { s with V := V' } ∧
      ∀ j (hj : j < 16), V'[j] =
        if h : k ≤ j ∧ j < k + bs.length then bs[j - k]'(by omega) else s.V[j] := by
  induction bs generalizing s k with
  | nil =>
    refine ⟨s.V, rfl, fun j hj => ?_⟩
    rw [dif_neg (by simp)]
  | cons b rest ih =>
    obtain ⟨V', h1, h2⟩ := ih { s with V := s.V.setIfInBounds k b } (k + 1)
    refine ⟨V', h1, fun j hj => ?_⟩
    rw [h2 j hj]
    by_cases hk : k = j
    · subst hk
      rw [dif_neg (by omega), dif_pos ⟨Nat.le_refl _, by simp⟩]
      simp
    · by_cases hj2 : k + 1 ≤ j ∧ j < k + 1 + rest.length
      · rw [dif_pos hj2, dif_pos ⟨by omega, by simp; omega⟩]
        have : j - k = j - (k + 1) + 1 := by omega
        simp [this]
      · rw [dif_neg hj2, dif_neg (by simp; omega)]
        simp [hk]

/-! ### Keys (R170, R172) -/

theorem State.mem_downKeys (s : State) (k : Key) : k ∈ s.downKeys ↔ s.keysDown[k] = true := by
  simp [State.downKeys]

/-- No key is drawn exactly when none is down. -/
theorem State.drawKey_eq_none_iff (s : State) :
    s.drawKey = none ↔ ∀ k : Key, s.keysDown[k] = false := by
  have h : s.drawKey = none ↔ s.downKeys = [] := by
    unfold State.drawKey
    split <;> simp_all
  rw [h, List.eq_nil_iff_forall_not_mem]
  exact forall_congr' fun k => by rw [s.mem_downKeys, Bool.not_eq_true]

/-- A key drawn is down. -/
theorem State.drawKey_down {s : State} {k : Key} (h : s.drawKey = some k) : s.keysDown[k] = true := by
  rw [← s.mem_downKeys]
  unfold State.drawKey at h
  split at h
  · cases h
  · next heq => cases h; simp [heq]
  · next a b ks heq =>
    cases h
    have hlt : Config.keyChoice s.draws % (ks.length + 2) < (a :: b :: ks).length := by
      have := Nat.mod_lt (Config.keyChoice s.draws) (show 0 < ks.length + 2 by omega)
      simp only [List.length_cons]
      omega
    rw [heq, List.getElem?_eq_getElem hlt]
    exact List.getElem_mem hlt

theorem keyOfByte_eq_some_iff (b : Byte) (k : Key) : keyOfByte b = some k ↔ b.toNat = k.val := by
  unfold keyOfByte
  split
  · simp [Fin.ext_iff]
  · next h => exact ⟨fun h => by simp at h, fun e => absurd k.isLt (by omega)⟩

theorem keyOfByte_eq_none_iff (b : Byte) : keyOfByte b = none ↔ 15 < b.toNat := by
  unfold keyOfByte
  split <;> simp <;> omega

/-- All that a key skip can do. -/
theorem State.skipOnKey_cases (s : State) (x : Reg) (w : Word) (f : Bool → Bool) :
    (∃ k : Key, (s.v x).toNat = k.val ∧ s.skipOnKey x w f = s.skipIf (f s.keysDown[k])) ∨
    (15 < (s.v x).toNat ∧ s.skipOnKey x w f = s.raise (.keyIndexOutOfRange (s.v x)) w) := by
  unfold State.skipOnKey
  cases h : keyOfByte (s.v x) with
  | some k => exact .inl ⟨k, (keyOfByte_eq_some_iff _ _).1 h, rfl⟩
  | none => exact .inr ⟨(keyOfByte_eq_none_iff _).1 h, rfl⟩

/-! ### The step cycle (R100, R101, R103, R211) -/

/-- All that a fetch can answer. -/
theorem State.fetch_cases (s : State) :
    (0xFFF ≤ s.PC.toNat ∧ s.fetch = .error (max s.PC.toNat 0x1000)) ∨
    (s.PC.toNat ≤ 0xFFE ∧ s.fetch = .ok (wordOfBytes (Memory.read s.memory s.PC.toNat)
      (Memory.read s.memory (s.PC.toNat + 1)))) := by
  unfold State.fetch
  cases h : Memory.offending s.PC.toNat 2 with
  | some bad =>
    obtain ⟨h1, h2, rfl⟩ := (Memory.offending_eq_some_iff _ _ bad).1 h
    exact .inl ⟨by omega, rfl⟩
  | none =>
    have := (Memory.offending_eq_none_iff _ _).1 h
    exact .inr ⟨by omega, rfl⟩

/-- When a `step_tick` executes an instruction. -/
theorem State.tickAction_eq_execute_iff (s : State) :
    s.tickAction = .execute ↔ s.halt = none ∧ s.runState = .running ∧ s.wait = .ready := by
  unfold State.tickAction
  split <;> simp_all

/-- When a `step_tick` makes the wait check. -/
theorem State.tickAction_eq_checkWait_iff (s : State) (x : Reg) :
    s.tickAction = .checkWait x ↔
      s.halt = none ∧ s.runState = .running ∧ s.wait = .awaitingKey x := by
  unfold State.tickAction
  split <;> simp_all

/-- When a `step_tick` does nothing. -/
theorem State.tickAction_eq_nothing_iff (s : State) :
    s.tickAction = .nothing ↔ s.halt ≠ none ∨ s.runState = .paused := by
  unfold State.tickAction
  split <;> simp_all

/-- Everything a `step_tick` can be: nothing, the wait check, a fetch fault, an unknown word, or the
execution of the decoded instruction. -/
theorem tick_cases (s : State) :
    ((s.halt ≠ none ∨ s.runState = .paused) ∧ tick s = .next s) ∨
    (∃ x, s.wait = .awaitingKey x ∧ s.halt = none ∧ tick s = .next (s.waitCheck x)) ∨
    (s.halt = none ∧ s.wait = .ready ∧ 0xFFF ≤ s.PC.toNat ∧
      tick s = .next (s.raise (.addressOutOfRange (max s.PC.toNat 0x1000)) 0)) ∨
    (∃ w, s.halt = none ∧ s.wait = .ready ∧ s.PC.toNat ≤ 0xFFE ∧ s.fetch = .ok w ∧
      ((decodeWord w = none ∧ tick s = .next (s.raise .unknownOpcode w)) ∨
        ∃ i, decodeWord w = some i ∧ tick s = exec i s)) := by
  cases hact : s.tickAction with
  | nothing =>
    exact .inl ⟨(s.tickAction_eq_nothing_iff).1 hact, by simp [tick, hact]⟩
  | checkWait x =>
    obtain ⟨h1, -, h3⟩ := (s.tickAction_eq_checkWait_iff x).1 hact
    exact .inr (.inl ⟨x, h3, h1, by simp [tick, hact]⟩)
  | execute =>
    obtain ⟨h1, -, h3⟩ := (s.tickAction_eq_execute_iff).1 hact
    refine .inr (.inr ?_)
    rcases s.fetch_cases with ⟨hp, hf⟩ | ⟨hp, hf⟩
    · exact .inl ⟨h1, h3, hp, by simp [tick, hact, State.fetchDecode, hf]⟩
    · refine .inr ⟨_, h1, h3, hp, hf, ?_⟩
      cases hd : decodeWord (wordOfBytes (Memory.read s.memory s.PC.toNat)
          (Memory.read s.memory (s.PC.toNat + 1))) with
      | none => exact .inl ⟨rfl, by simp [tick, hact, State.fetchDecode, hf, hd]⟩
      | some i => exact .inr ⟨i, rfl, by simp [tick, hact, State.fetchDecode, hf, hd]⟩

/-- A step is a `step_tick` or one outside event, taken from the schedule (R212). -/
theorem step_cases (s : State) :
    (s.schedule = [] ∧ step s = tick s) ∨
    (∃ rest, s.schedule = .stepTick :: rest ∧ step s = tick { s with schedule := rest }) ∨
    (∃ e rest, s.schedule = .outside e :: rest ∧
      step s = .next (State.occur { s with schedule := rest } e)) := by
  cases h : s.schedule with
  | nil => exact .inl ⟨rfl, by simp [step, h]⟩
  | cons e rest =>
    cases e with
    | stepTick => exact .inr (.inl ⟨rest, rfl, by simp [step, h]⟩)
    | outside e => exact .inr (.inr ⟨e, rest, rfl, by simp [step, h]⟩)

/-! ### The 60 Hz engine (R220, R223) -/

@[simp] theorem toNat_decTimer (t : Byte) : (decTimer t).toNat = t.toNat - 1 := by
  unfold decTimer
  split
  · next h => simp [h]
  · next h =>
    have : t.toNat ≠ 0 := fun e => h (BitVec.eq_of_toNat_eq (by simpa using e))
    rw [BitVec.toNat_sub]
    have := t.isLt
    simp
    omega

/-! ### Reset under a font (R31, R260) -/

/-- What memory reads as after a reset under any font. -/
theorem State.read_resetUnder (font : Font) (a : Nat) :
    Memory.read (State.resetUnder font).memory a = Memory.initialUnder font a := by
  rw [State.resetUnder, Memory.read_ofBytes]
  by_cases h : a < 80 <;> simp [h, Memory.initial, Memory.initialUnder, Config.fontLen]

/-- Under the model's own font a reset is `State.reset`. -/
theorem State.resetUnder_font : State.resetUnder Params.font = State.reset := by
  rw [State.resetUnder, Memory.ofBytes_initial _ 0 fun k hk => by
    rw [Vector.length_toList] at hk
    simp [Memory.initial, Memory.initialUnder, hk]]
  rfl

/-- A reset under any font leaves the memory canonical. -/
theorem State.wf_resetUnder (font : Font) : Memory.wf (State.resetUnder font).memory = true :=
  Memory.wfFrom_ofBytes _ 0 (by rw [font.length_toList]; decide)

/-! ### Messages (R214 to R219) -/

/-- `LoadROM` is refused exactly from 0xE00 bytes on (R217). -/
theorem romRefused_iff (len : Nat) : romRefused len = true ↔ 0xE00 ≤ len := by
  simp [romRefused, Config.romLimit, Config.memSize, Config.progBase]
  omega

end Sys2Proof.Machine
end

