-- ==== Sys2Proof/Laws/Exec.lean ====
section
/-! SUPPORT. What each instruction with a check can answer, once for every proof: the condition taken in the state before, or the whole effect. The other instructions answer their one effect by definition. -/

namespace Sys2Proof.Machine

/-- `RET`: `StackUnderflow`, the return, or the model's stop above 15. -/
theorem execRet_cases (s : State) :
    (s.SP = 0 ∧ execRet s = .next (s.raise .stackUnderflow (encode .ret))) ∨
    (∃ k : Fin 16, s.SP.toNat = k.val ∧ k ≠ 0 ∧ execRet s = .next (s.pop.jump s.stack[k])) ∨
    (15 < s.SP.toNat ∧ execRet s = .fault .stackPointerOutOfRange) := by
  unfold execRet
  split
  · next h => exact .inl ⟨h, rfl⟩
  · next h =>
    split
    · next h16 =>
      refine .inr (.inl ⟨⟨s.SP.toNat, h16⟩, rfl, fun e => h ?_, rfl⟩)
      exact BitVec.eq_of_toNat_eq (by simpa [Fin.ext_iff] using e)
    · next h16 => exact .inr (.inr ⟨by omega, rfl⟩)

/-- `CALL`: `StackOverflow`, the call, or the model's stop above 15. -/
theorem execCall_cases (nnn : Addr12) (s : State) :
    (s.SP = 15 ∧ execCall nnn s = .next (s.raise .stackOverflow (encode (.call nnn)))) ∨
    (s.SP.toNat < 15 ∧ execCall nnn s = .next ((s.push (s.PC + 2)).jump (immAddr nnn))) ∨
    (15 < s.SP.toNat ∧ execCall nnn s = .fault .stackPointerOutOfRange) := by
  unfold execCall
  split
  · next h => exact .inl ⟨h, rfl⟩
  · next h =>
    have hne : s.SP.toNat ≠ 15 := fun e => h (BitVec.eq_of_toNat_eq (by simpa using e))
    split
    · exact .inr (.inl ⟨by omega, rfl⟩)
    · exact .inr (.inr ⟨by omega, rfl⟩)

/-- A call's new `SP` and entry, below the limit. -/
theorem State.push_spec (s : State) (ra : Word) (h : s.SP.toNat < 15) :
    (s.push ra).SP.toNat = s.SP.toNat + 1 ∧
      ∀ k : Fin 16, (s.push ra).stack[k] = if k.val = s.SP.toNat + 1 then ra else s.stack[k] := by
  have hsp : (s.SP + 1).toNat = s.SP.toNat + 1 := by
    rw [BitVec.toNat_add]
    simp
    omega
  refine ⟨hsp, fun k => ?_⟩
  simp only [State.push_stack, hsp, Fin.getElem_fin]
  rw [Vector.getElem_setIfInBounds]
  by_cases hk : k.val = s.SP.toNat + 1
  · simp [hk]
  · rw [if_neg hk, if_neg (Ne.symm hk)]

/-- A return's new `SP`, above 0. -/
theorem State.pop_spec (s : State) (h : s.SP ≠ 0) : s.pop.SP.toNat + 1 = s.SP.toNat := by
  have key : ∀ b : Byte, b ≠ 0 → (b - 1).toNat + 1 = b.toNat := by decide
  exact key s.SP h

/-- `SKP` and `SKNP`: the skip on the named key's flag, or `KeyIndexOutOfRange`. -/
theorem execSkpVx_cases (x : Reg) (s : State) :
    (∃ k : Key, (s.v x).toNat = k.val ∧
      execSkpVx x s = .next (s.jump (if s.keysDown[k] then s.PC + 4 else s.PC + 2))) ∨
    (15 < (s.v x).toNat ∧
      execSkpVx x s = .next (s.raise (.keyIndexOutOfRange (s.v x)) (encode (.skpVx x)))) := by
  unfold execSkpVx
  rcases s.skipOnKey_cases x (encode (.skpVx x)) (fun down => down) with ⟨k, hk, h⟩ | ⟨hk, h⟩
  · exact .inl ⟨k, hk, by rw [h, State.skipIf_eq]⟩
  · exact .inr ⟨hk, by rw [h]⟩

theorem execSknpVx_cases (x : Reg) (s : State) :
    (∃ k : Key, (s.v x).toNat = k.val ∧
      execSknpVx x s = .next (s.jump (if !s.keysDown[k] then s.PC + 4 else s.PC + 2))) ∨
    (15 < (s.v x).toNat ∧
      execSknpVx x s = .next (s.raise (.keyIndexOutOfRange (s.v x)) (encode (.sknpVx x)))) := by
  unfold execSknpVx
  rcases s.skipOnKey_cases x (encode (.sknpVx x)) (fun down => !down) with ⟨k, hk, h⟩ | ⟨hk, h⟩
  · exact .inl ⟨k, hk, by rw [h, State.skipIf_eq]⟩
  · exact .inr ⟨hk, by rw [h]⟩

/-- `LD Vx,K`: a key that is down is taken, or the machine suspends. -/
theorem execLdVxK_cases (x : Reg) (s : State) :
    (∃ k : Key, s.keysDown[k] = true ∧ execLdVxK x s = .next (s.takeKey x k)) ∨
    ((∀ k : Key, s.keysDown[k] = false) ∧
      execLdVxK x s = .next { s with wait := .awaitingKey x }) := by
  unfold execLdVxK
  cases h : s.drawKey with
  | some k => exact .inl ⟨k, State.drawKey_down h, rfl⟩
  | none => exact .inr ⟨(s.drawKey_eq_none_iff).1 h, rfl⟩

/-- The wait check: a key that is down is taken and the wait ends, or nothing changes. -/
theorem State.waitCheck_cases (s : State) (x : Reg) :
    (∃ k : Key, s.keysDown[k] = true ∧ s.waitCheck x = (s.takeKey x k).setWait .ready) ∨
    ((∀ k : Key, s.keysDown[k] = false) ∧ s.waitCheck x = s) := by
  unfold State.waitCheck
  cases h : s.drawKey with
  | some k => exact .inl ⟨k, State.drawKey_down h, rfl⟩
  | none => exact .inr ⟨(s.drawKey_eq_none_iff).1 h, rfl⟩

@[simp] theorem toNat_byteOfKey (k : Key) : (byteOfKey k).toNat = k.val := by
  have := k.isLt
  simp only [byteOfKey, BitVec.toNat_ofNat]
  omega

/-- `DRW`: `AddressOutOfRange`, or the sprite drawn. -/
theorem execDrwVxVyN_cases (x y : Reg) (n : Nibble) (s : State) :
    (1 ≤ n.toNat ∧ 0x1000 < s.indexAddr + n.toNat ∧ execDrwVxVyN x y n s =
      .next (s.raise (.addressOutOfRange (max s.indexAddr 0x1000)) (encode (.drwVxVyN x y n)))) ∨
    ((n.toNat = 0 ∨ s.indexAddr + n.toNat ≤ 0x1000) ∧ execDrwVxVyN x y n s =
      .next (s.drawSprite Params.drwVwrap x y
        (Memory.readBytes s.memory s.indexAddr n.toNat)).advance) := by
  unfold execDrwVxVyN drwUnder
  rcases s.orAddressFault_memRead (encode (.drwVxVyN x y n)) s.indexAddr n.toNat
    (fun rows => (s.drawSprite Params.drwVwrap x y rows).advance) with ⟨h1, h2, h⟩ | ⟨h1, h⟩
  · exact .inl ⟨h1, h2, by rw [h]⟩
  · exact .inr ⟨h1, by rw [h]⟩

/-- `LD B,Vx`: `AddressOutOfRange`, or the digits stored. -/
theorem execLdBVx_cases (x : Reg) (s : State) :
    (0x1000 < s.indexAddr + 3 ∧ execLdBVx x s =
      .next (s.raise (.addressOutOfRange (max s.indexAddr 0x1000)) (encode (.ldBVx x)))) ∨
    (s.indexAddr + 3 ≤ 0x1000 ∧ execLdBVx x s =
      .next (s.setMemory (Memory.writeBytes s.memory s.indexAddr (bcdDigits (s.v x)))).advance) := by
  unfold execLdBVx
  have hl : (bcdDigits (s.v x)).length = 3 := rfl
  rcases s.orAddressFault_memWrite (encode (.ldBVx x)) s.indexAddr (bcdDigits (s.v x))
    State.advance with ⟨-, h2, h⟩ | ⟨h1, h⟩
  · exact .inl ⟨by omega, by rw [h]⟩
  · exact .inr ⟨by omega, by rw [h]⟩

/-- `LD [I],Vx`: `AddressOutOfRange`, or the registers stored. -/
theorem execLdMemVx_cases (x : Reg) (s : State) :
    (0x1000 < s.indexAddr + (x.toNat + 1) ∧ execLdMemVx x s =
      .next (s.raise (.addressOutOfRange (max s.indexAddr 0x1000)) (encode (.ldMemVx x)))) ∨
    (s.indexAddr + (x.toNat + 1) ≤ 0x1000 ∧ execLdMemVx x s =
      .next (s.setMemory (Memory.writeBytes s.memory s.indexAddr (s.regBlock x))).advance) := by
  unfold execLdMemVx
  have hl := s.length_regBlock x
  rcases s.orAddressFault_memWrite (encode (.ldMemVx x)) s.indexAddr (s.regBlock x)
    State.advance with ⟨-, h2, h⟩ | ⟨h1, h⟩
  · exact .inl ⟨by omega, by rw [h]⟩
  · exact .inr ⟨by omega, by rw [h]⟩

/-- `LD Vx,[I]`: `AddressOutOfRange`, or the registers loaded. -/
theorem execLdVxMem_cases (x : Reg) (s : State) :
    (0x1000 < s.indexAddr + (x.toNat + 1) ∧ execLdVxMem x s =
      .next (s.raise (.addressOutOfRange (max s.indexAddr 0x1000)) (encode (.ldVxMem x)))) ∨
    (s.indexAddr + (x.toNat + 1) ≤ 0x1000 ∧ ∃ V', execLdVxMem x s =
        .next ({ s with V := V' } : State).advance ∧
      ∀ j (hj : j < 16), V'[j] =
        if j ≤ x.toNat then Memory.read s.memory (s.indexAddr + j) else s.V[j]) := by
  unfold execLdVxMem
  rcases s.orAddressFault_memRead (encode (.ldVxMem x)) s.indexAddr (x.toNat + 1)
    (fun bytes => (s.loadBlock 0 bytes).advance) with ⟨-, h2, h⟩ | ⟨h1, h⟩
  · exact .inl ⟨h2, by rw [h]⟩
  · obtain ⟨V', hV, hj⟩ :=
      s.loadBlock_spec (Memory.readBytes s.memory s.indexAddr (x.toNat + 1)) 0
    refine .inr ⟨by omega, V', by rw [h, hV], fun j hlt => ?_⟩
    rw [hj j hlt]
    by_cases hx : j ≤ x.toNat
    · rw [dif_pos (by simp; omega), if_pos hx]
      simp
    · rw [dif_neg (by simp; omega), if_neg hx]

/-- An instruction either leaves `halt` as it is or takes a condition in the state before it, with its
own word (R109, R205). -/
theorem exec_halt_cases (i : Instr) (s t : State) (h : exec i s = .next t) :
    t.halt = s.halt ∨ ∃ c, t = s.raise c (encode i) := by
  cases i
  case ret =>
    rcases execRet_cases s with ⟨-, e⟩ | ⟨k, -, -, e⟩ | ⟨-, e⟩ <;> rw [exec, e] at h <;> cases h
    · exact .inr ⟨_, rfl⟩
    · exact .inl rfl
  case call nnn =>
    rcases execCall_cases nnn s with ⟨-, e⟩ | ⟨-, e⟩ | ⟨-, e⟩ <;> rw [exec, e] at h <;> cases h
    · exact .inr ⟨_, rfl⟩
    · exact .inl rfl
  case skpVx x =>
    rcases execSkpVx_cases x s with ⟨k, -, e⟩ | ⟨-, e⟩ <;> rw [exec, e] at h <;> cases h
    · exact .inl rfl
    · exact .inr ⟨_, rfl⟩
  case sknpVx x =>
    rcases execSknpVx_cases x s with ⟨k, -, e⟩ | ⟨-, e⟩ <;> rw [exec, e] at h <;> cases h
    · exact .inl rfl
    · exact .inr ⟨_, rfl⟩
  case drwVxVyN x y n =>
    rcases execDrwVxVyN_cases x y n s with ⟨-, -, e⟩ | ⟨-, e⟩ <;> rw [exec, e] at h <;> cases h
    · exact .inr ⟨_, rfl⟩
    · exact .inl rfl
  case ldBVx x =>
    rcases execLdBVx_cases x s with ⟨-, e⟩ | ⟨-, e⟩ <;> rw [exec, e] at h <;> cases h
    · exact .inr ⟨_, rfl⟩
    · exact .inl rfl
  case ldMemVx x =>
    rcases execLdMemVx_cases x s with ⟨-, e⟩ | ⟨-, e⟩ <;> rw [exec, e] at h <;> cases h
    · exact .inr ⟨_, rfl⟩
    · exact .inl rfl
  case ldVxMem x =>
    rcases execLdVxMem_cases x s with ⟨-, e⟩ | ⟨-, V', e, -⟩ <;> rw [exec, e] at h <;> cases h
    · exact .inr ⟨_, rfl⟩
    · exact .inl rfl
  case ldVxK x =>
    rcases execLdVxK_cases x s with ⟨k, -, e⟩ | ⟨-, e⟩ <;> rw [exec, e] at h <;> cases h <;>
      exact .inl rfl
  case seVxKk x kk => cases h; exact .inl (by rw [State.skipIf_eq]; rfl)
  case sneVxKk x kk => cases h; exact .inl (by rw [State.skipIf_eq]; rfl)
  case seVxVy x y => cases h; exact .inl (by rw [State.skipIf_eq]; rfl)
  case sneVxVy x y => cases h; exact .inl (by rw [State.skipIf_eq]; rfl)
  all_goals exact .inl (by cases h; rfl)

end Sys2Proof.Machine
end

