-- ==== Sys2Proof/Laws/PerInstr.lean ====
section
/-! SUPPORT. A law of every instruction as syntax: its word is selected by its row of the opcode map, and the row builds it back (spec/30_encoding R78, R92). -/

namespace Sys2Proof

/-! ### Words under the masks of R78 -/

theorem nibble_and_ones (p : Nibble) : p &&& 0xF#4 = p := by revert p; decide

theorem byte_and_ones (k : Byte) : k &&& 0xFF#8 = k := by revert k; decide

theorem mask_formatA (p : Nibble) (a : Addr12) : (p ++ a : Word) &&& 0xF000#16 = p ++ 0#12 := by
  have h : 0xF000#16 = 0xF#4 ++ 0x000#12 := by decide
  rw [h, BitVec.and_append, nibble_and_ones, BitVec.and_zero]

theorem mask_formatXK (p x : Nibble) (k : Byte) :
    (p ++ x ++ k : Word) &&& 0xF000#16 = p ++ 0#4 ++ 0#8 := by
  have h : 0xF000#16 = 0xF#4 ++ 0x0#4 ++ 0x00#8 := by decide
  rw [h, BitVec.and_append, BitVec.and_append, nibble_and_ones, BitVec.and_zero, BitVec.and_zero]

theorem mask_formatX (p x : Nibble) (k : Byte) :
    (p ++ x ++ k : Word) &&& 0xF0FF#16 = p ++ 0#4 ++ k := by
  have h : 0xF0FF#16 = 0xF#4 ++ 0x0#4 ++ 0xFF#8 := by decide
  rw [h, BitVec.and_append, BitVec.and_append, nibble_and_ones, byte_and_ones, BitVec.and_zero]

theorem mask_formatXY (p x y n : Nibble) :
    (p ++ x ++ y ++ n : Word) &&& 0xF00F#16 = p ++ 0#4 ++ 0#4 ++ n := by
  have h : 0xF00F#16 = 0xF#4 ++ 0x0#4 ++ 0x0#4 ++ 0xF#4 := by decide
  rw [h, BitVec.and_append, BitVec.and_append, BitVec.and_append, nibble_and_ones, nibble_and_ones,
    BitVec.and_zero, BitVec.and_zero]

theorem mask_formatXYN (p x y n : Nibble) :
    (p ++ x ++ y ++ n : Word) &&& 0xF000#16 = p ++ 0#4 ++ 0#4 ++ 0#4 := by
  have h : 0xF000#16 = 0xF#4 ++ 0x0#4 ++ 0x0#4 ++ 0x0#4 := by decide
  rw [h, BitVec.and_append, BitVec.and_append, BitVec.and_append, nibble_and_ones,
    BitVec.and_zero, BitVec.and_zero, BitVec.and_zero]

end Sys2Proof

namespace Sys2Proof.Laws.RowOfTheMap

/-- Some row of the opcode map selects the instruction's word by its mask and match, and builds the
instruction back from it. -/
def Statement (i : Instr) : Prop :=
  ∃ k, ∃ h : k < opcodeRows.length,
    encode i &&& opcodeRows[k].mask = opcodeRows[k].value ∧ opcodeRows[k].build (encode i) = i


theorem sys (nnn : Addr12) : Statement (.sys nnn) :=
  ⟨0, by decide, (mask_formatA _ _).trans (by decide),
    congrArg Instr.sys (fieldNnn_formatA _ _)⟩

theorem cls : Statement (.cls) :=
  ⟨1, by decide, by decide, rfl⟩

theorem ret : Statement (.ret) :=
  ⟨2, by decide, by decide, rfl⟩

theorem jp (nnn : Addr12) : Statement (.jp nnn) :=
  ⟨3, by decide, (mask_formatA _ _).trans (by decide),
    congrArg Instr.jp (fieldNnn_formatA _ _)⟩

theorem call (nnn : Addr12) : Statement (.call nnn) :=
  ⟨4, by decide, (mask_formatA _ _).trans (by decide),
    congrArg Instr.call (fieldNnn_formatA _ _)⟩

theorem seVxKk (x : Reg) (kk : Byte) : Statement (.seVxKk x kk) :=
  ⟨5, by decide, (mask_formatXK _ _ _).trans (by decide),
    congrArg₂ Instr.seVxKk (fieldX_formatXK _ _ _) (fieldKk_formatXK _ _ _)⟩

theorem sneVxKk (x : Reg) (kk : Byte) : Statement (.sneVxKk x kk) :=
  ⟨6, by decide, (mask_formatXK _ _ _).trans (by decide),
    congrArg₂ Instr.sneVxKk (fieldX_formatXK _ _ _) (fieldKk_formatXK _ _ _)⟩

theorem seVxVy (x y : Reg) : Statement (.seVxVy x y) :=
  ⟨7, by decide, (mask_formatXY _ _ _ _).trans (by decide),
    congrArg₂ Instr.seVxVy (fieldX_formatXY _ _ _ _) (fieldY_formatXY _ _ _ _)⟩

theorem ldVxKk (x : Reg) (kk : Byte) : Statement (.ldVxKk x kk) :=
  ⟨8, by decide, (mask_formatXK _ _ _).trans (by decide),
    congrArg₂ Instr.ldVxKk (fieldX_formatXK _ _ _) (fieldKk_formatXK _ _ _)⟩

theorem addVxKk (x : Reg) (kk : Byte) : Statement (.addVxKk x kk) :=
  ⟨9, by decide, (mask_formatXK _ _ _).trans (by decide),
    congrArg₂ Instr.addVxKk (fieldX_formatXK _ _ _) (fieldKk_formatXK _ _ _)⟩

theorem ldVxVy (x y : Reg) : Statement (.ldVxVy x y) :=
  ⟨10, by decide, (mask_formatXY _ _ _ _).trans (by decide),
    congrArg₂ Instr.ldVxVy (fieldX_formatXY _ _ _ _) (fieldY_formatXY _ _ _ _)⟩

theorem orVxVy (x y : Reg) : Statement (.orVxVy x y) :=
  ⟨11, by decide, (mask_formatXY _ _ _ _).trans (by decide),
    congrArg₂ Instr.orVxVy (fieldX_formatXY _ _ _ _) (fieldY_formatXY _ _ _ _)⟩

theorem andVxVy (x y : Reg) : Statement (.andVxVy x y) :=
  ⟨12, by decide, (mask_formatXY _ _ _ _).trans (by decide),
    congrArg₂ Instr.andVxVy (fieldX_formatXY _ _ _ _) (fieldY_formatXY _ _ _ _)⟩

theorem xorVxVy (x y : Reg) : Statement (.xorVxVy x y) :=
  ⟨13, by decide, (mask_formatXY _ _ _ _).trans (by decide),
    congrArg₂ Instr.xorVxVy (fieldX_formatXY _ _ _ _) (fieldY_formatXY _ _ _ _)⟩

theorem addVxVy (x y : Reg) : Statement (.addVxVy x y) :=
  ⟨14, by decide, (mask_formatXY _ _ _ _).trans (by decide),
    congrArg₂ Instr.addVxVy (fieldX_formatXY _ _ _ _) (fieldY_formatXY _ _ _ _)⟩

theorem subVxVy (x y : Reg) : Statement (.subVxVy x y) :=
  ⟨15, by decide, (mask_formatXY _ _ _ _).trans (by decide),
    congrArg₂ Instr.subVxVy (fieldX_formatXY _ _ _ _) (fieldY_formatXY _ _ _ _)⟩

theorem shrVx (x y : Reg) : Statement (.shrVx x y) :=
  ⟨16, by decide, (mask_formatXY _ _ _ _).trans (by decide),
    congrArg₂ Instr.shrVx (fieldX_formatXY _ _ _ _) (fieldY_formatXY _ _ _ _)⟩

theorem subnVxVy (x y : Reg) : Statement (.subnVxVy x y) :=
  ⟨17, by decide, (mask_formatXY _ _ _ _).trans (by decide),
    congrArg₂ Instr.subnVxVy (fieldX_formatXY _ _ _ _) (fieldY_formatXY _ _ _ _)⟩

theorem shlVx (x y : Reg) : Statement (.shlVx x y) :=
  ⟨18, by decide, (mask_formatXY _ _ _ _).trans (by decide),
    congrArg₂ Instr.shlVx (fieldX_formatXY _ _ _ _) (fieldY_formatXY _ _ _ _)⟩

theorem sneVxVy (x y : Reg) : Statement (.sneVxVy x y) :=
  ⟨19, by decide, (mask_formatXY _ _ _ _).trans (by decide),
    congrArg₂ Instr.sneVxVy (fieldX_formatXY _ _ _ _) (fieldY_formatXY _ _ _ _)⟩

theorem ldINnn (nnn : Addr12) : Statement (.ldINnn nnn) :=
  ⟨20, by decide, (mask_formatA _ _).trans (by decide),
    congrArg Instr.ldINnn (fieldNnn_formatA _ _)⟩

theorem jpV0Nnn (nnn : Addr12) : Statement (.jpV0Nnn nnn) :=
  ⟨21, by decide, (mask_formatA _ _).trans (by decide),
    congrArg Instr.jpV0Nnn (fieldNnn_formatA _ _)⟩

theorem rndVxKk (x : Reg) (kk : Byte) : Statement (.rndVxKk x kk) :=
  ⟨22, by decide, (mask_formatXK _ _ _).trans (by decide),
    congrArg₂ Instr.rndVxKk (fieldX_formatXK _ _ _) (fieldKk_formatXK _ _ _)⟩

theorem drwVxVyN (x y : Reg) (n : Nibble) : Statement (.drwVxVyN x y n) :=
  ⟨23, by decide, (mask_formatXYN _ _ _ _).trans (by decide),
    by
    simp only [encode, opcodeRows, opcodeRowsA, opcodeRowsB, opcodeRowsC]
    simp⟩

theorem skpVx (x : Reg) : Statement (.skpVx x) :=
  ⟨24, by decide, (mask_formatX _ _ _).trans (by decide),
    congrArg Instr.skpVx (fieldX_formatXK _ _ _)⟩

theorem sknpVx (x : Reg) : Statement (.sknpVx x) :=
  ⟨25, by decide, (mask_formatX _ _ _).trans (by decide),
    congrArg Instr.sknpVx (fieldX_formatXK _ _ _)⟩

theorem ldVxDt (x : Reg) : Statement (.ldVxDt x) :=
  ⟨26, by decide, (mask_formatX _ _ _).trans (by decide),
    congrArg Instr.ldVxDt (fieldX_formatXK _ _ _)⟩

theorem ldVxK (x : Reg) : Statement (.ldVxK x) :=
  ⟨27, by decide, (mask_formatX _ _ _).trans (by decide),
    congrArg Instr.ldVxK (fieldX_formatXK _ _ _)⟩

theorem ldDtVx (x : Reg) : Statement (.ldDtVx x) :=
  ⟨28, by decide, (mask_formatX _ _ _).trans (by decide),
    congrArg Instr.ldDtVx (fieldX_formatXK _ _ _)⟩

theorem ldStVx (x : Reg) : Statement (.ldStVx x) :=
  ⟨29, by decide, (mask_formatX _ _ _).trans (by decide),
    congrArg Instr.ldStVx (fieldX_formatXK _ _ _)⟩

theorem addIVx (x : Reg) : Statement (.addIVx x) :=
  ⟨30, by decide, (mask_formatX _ _ _).trans (by decide),
    congrArg Instr.addIVx (fieldX_formatXK _ _ _)⟩

theorem ldFVx (x : Reg) : Statement (.ldFVx x) :=
  ⟨31, by decide, (mask_formatX _ _ _).trans (by decide),
    congrArg Instr.ldFVx (fieldX_formatXK _ _ _)⟩

theorem ldBVx (x : Reg) : Statement (.ldBVx x) :=
  ⟨32, by decide, (mask_formatX _ _ _).trans (by decide),
    congrArg Instr.ldBVx (fieldX_formatXK _ _ _)⟩

theorem ldMemVx (x : Reg) : Statement (.ldMemVx x) :=
  ⟨33, by decide, (mask_formatX _ _ _).trans (by decide),
    congrArg Instr.ldMemVx (fieldX_formatXK _ _ _)⟩

theorem ldVxMem (x : Reg) : Statement (.ldVxMem x) :=
  ⟨34, by decide, (mask_formatX _ _ _).trans (by decide),
    congrArg Instr.ldVxMem (fieldX_formatXK _ _ _)⟩

end Sys2Proof.Laws.RowOfTheMap
end

