-- ==== Sys2Proof/Laws/Sprite.lean ====
section
/-! SUPPORT. The cells a sprite names: which they are, that they are distinct, and that they lie in the active mode (spec/44_random_display R162, R163 (e)). -/

namespace Sys2Proof.Machine

theorem cellAt_inj {w cx cy cx' cy' : Nat} (h : cx < w) (h' : cx' < w)
    (e : cellAt w cx cy = cellAt w cx' cy') : cx = cx' ∧ cy = cy' := by
  have hw : 0 < w := by omega
  have hc : cy = cy' := by
    have h1 := congrArg (· / w) e
    simpa [cellAt, Nat.mul_add_div hw, Nat.div_eq_of_lt h, Nat.div_eq_of_lt h'] using h1
  subst hc
  simp only [cellAt] at e
  omega

theorem cellAt_lt {w h cx cy : Nat} (hx : cx < w) (hy : cy < h) : cellAt w cx cy < w * h := by
  have : w * (cy + 1) ≤ w * h := Nat.mul_le_mul_left w hy
  rw [Nat.mul_add, Nat.mul_one] at this
  simp only [cellAt]
  omega

/-- Eight neighbouring columns stay distinct on a screen at least eight wide. -/
theorem column_inj {w x0 a b : Nat} (hw : 8 ≤ w) (ha : a < 8) (hb : b < 8)
    (e : (x0 + a) % w = (x0 + b) % w) : a = b := by
  have h : a % w = b % w := Nat.ModEq.add_left_cancel' x0 e
  rwa [Nat.mod_eq_of_lt (by omega), Nat.mod_eq_of_lt (by omega)] at h

theorem mem_spriteByteCells (w x0 cy : Nat) (b : Byte) (c : Nat) :
    c ∈ spriteByteCells w x0 cy b ↔
      ∃ k, k < 8 ∧ b.getLsbD (7 - k) = true ∧ c = cellAt w ((x0 + k) % w) cy := by
  simp only [spriteByteCells, List.mem_filterMap, List.mem_range]
  constructor
  · rintro ⟨k, hk, h⟩
    split at h
    · next hb => exact ⟨k, hk, hb, by simpa using h.symm⟩
    · cases h
  · rintro ⟨k, hk, hb, rfl⟩
    exact ⟨k, hk, by simp [hb]⟩

theorem nodup_spriteByteCells {w : Nat} (hw : 8 ≤ w) (x0 cy : Nat) (b : Byte) :
    (spriteByteCells w x0 cy b).Nodup := by
  have aux : ∀ l : List Nat, l.Nodup → (∀ k ∈ l, k < 8) →
      (l.filterMap fun k =>
        if b.getLsbD (7 - k) then some (cellAt w ((x0 + k) % w) cy) else none).Nodup := by
    intro l
    induction l with
    | nil => intros; simp
    | cons k l ih =>
      intro hl h8
      obtain ⟨hk, hl⟩ := List.nodup_cons.1 hl
      have ih' := ih hl fun j hj => h8 j (by simp [hj])
      by_cases hb : b.getLsbD (7 - k) = true
      · rw [List.filterMap_cons_some (b := cellAt w ((x0 + k) % w) cy) (by simp [hb])]
        refine List.nodup_cons.2 ⟨fun hmem => ?_, ih'⟩
        obtain ⟨j, hj, he⟩ := List.mem_filterMap.1 hmem
        split at he
        · have hinj := cellAt_inj (Nat.mod_lt _ (by omega)) (Nat.mod_lt _ (by omega))
            (Option.some.inj he)
          exact hk (column_inj hw (h8 j (by simp [hj])) (h8 k (by simp)) hinj.1 ▸ hj)
        · cases he
      · rw [List.filterMap_cons_none (by simp [hb])]
        exact ih'
  exact aux _ List.nodup_range (by simp)

/-- Which cells a clipped sprite names. -/
theorem mem_spriteCells (w h x0 : Nat) (c : Nat) :
    ∀ (rows : List Byte) (y0 : Nat), c ∈ spriteCells w h false x0 y0 rows ↔
      ∃ r, ∃ hr : r < rows.length, y0 + r < h ∧
        ∃ k, k < 8 ∧ (rows[r]).getLsbD (7 - k) = true ∧ c = cellAt w ((x0 + k) % w) (y0 + r)
  | [], y0 => by simp [spriteCells]
  | b :: bs, y0 => by
    rw [spriteCells, List.mem_append, mem_spriteCells w h x0 c bs (y0 + 1)]
    constructor
    · rintro (hc | ⟨r, hr, hy, hk⟩)
      · unfold spriteRow at hc
        by_cases hy : y0 < h
        · simp only [hy, if_true] at hc
          exact ⟨0, by simp, hy, by simpa using (mem_spriteByteCells w x0 y0 b c).1 hc⟩
        · simp [hy] at hc
      · exact ⟨r + 1, by simpa using hr, by omega, by
          simpa [Nat.add_assoc, Nat.add_comm, Nat.add_left_comm] using hk⟩
    · rintro ⟨r, hr, hy, hk⟩
      cases r with
      | zero =>
        left
        have hy' : y0 < h := by omega
        simp only [spriteRow, hy', if_true]
        exact (mem_spriteByteCells w x0 y0 b c).2 (by simpa using hk)
      | succ r =>
        right
        exact ⟨r, by simpa using hr, by omega, by
          simpa [Nat.add_assoc, Nat.add_comm, Nat.add_left_comm] using hk⟩

/-- A clipped sprite names no cell twice (R163 (e)). -/
theorem nodup_spriteCells {w : Nat} (hw : 8 ≤ w) (h x0 : Nat) :
    ∀ (rows : List Byte) (y0 : Nat), (spriteCells w h false x0 y0 rows).Nodup
  | [], _ => by simp [spriteCells]
  | b :: bs, y0 => by
    rw [spriteCells, List.nodup_append]
    refine ⟨?_, nodup_spriteCells hw h x0 bs (y0 + 1), fun c hc d hd e => ?_⟩
    · unfold spriteRow
      split <;> simp [nodup_spriteByteCells hw]
    · subst e
      obtain ⟨r, hr, -, k, -, -, hk⟩ := (mem_spriteCells w h x0 c bs (y0 + 1)).1 hd
      unfold spriteRow at hc
      by_cases hy : y0 < h
      · simp only [hy, if_true] at hc
        obtain ⟨j, -, -, hj⟩ := (mem_spriteByteCells w x0 y0 b c).1 hc
        have := cellAt_inj (Nat.mod_lt _ (by omega)) (Nat.mod_lt _ (by omega)) (hj.symm.trans hk)
        omega
      · simp [hy] at hc

/-- A sprite's cells, clipped, lie in the active mode. -/
theorem spriteCells_lt {w h x0 c : Nat} (hw : 0 < w) {rows : List Byte} {y0 : Nat}
    (hc : c ∈ spriteCells w h false x0 y0 rows) : c < w * h := by
  obtain ⟨r, hr, hy, k, -, -, rfl⟩ := (mem_spriteCells w h x0 c rows y0).1 hc
  exact cellAt_lt (Nat.mod_lt _ hw) hy

theorem screenWidth_ge (m : Bool) : 8 ≤ screenWidth m := by cases m <;> decide

/-- Drawing a clipped sprite keeps the screen inside the active mode and in canonical form. -/
theorem State.drawSprite_wfFrom (s : State) (x y : Reg) (rows : List Byte)
    (h : Screen.wfFrom (screenWidth s.hires * screenHeight s.hires) 0 s.screen = true) :
    Screen.wfFrom (screenWidth s.hires * screenHeight s.hires) 0
      (s.drawSprite false x y rows).screen = true :=
  drawCells_wfFrom (fun _ hc => spriteCells_lt (by have := screenWidth_ge s.hires; omega) hc) h

end Sys2Proof.Machine
end

