-- ==== Sys2Proof/Tests/Slice0.lean ====
section
/-! SUPPORT. Tests of one step each, from the vectors of spec/95_test_vectors (named in the comments), and for every obligation with hypotheses a state and operands that meet them. -/

namespace Sys2Proof.Tests

open Sys2Proof Sys2Proof.Machine Sys2Proof.Claims

/-- After reset, running, the word at 0x200, some registers preset. -/
def start (w : Word) (regs : List (Reg × Byte)) : State :=
  regs.foldl (fun s p => s.setV p.1 p.2) (State.reset.placeWord w)

/-- The same with the word at another address. -/
def startAt (pc w : Word) (regs : List (Reg × Byte)) : State :=
  regs.foldl (fun s p => s.setV p.1 p.2) (State.placeWord { State.reset with PC := pc } w)

/-- Bytes put into memory. -/
def poke (s : State) (a : Nat) (bs : List Byte) : State :=
  s.setMemory (Memory.writeBytes s.memory a bs)

/-- Reset, running, nothing placed, at an address. -/
def runningAt (pc : Word) : State := { State.reset with PC := pc, runState := .running }

/-- What is read off the state after one step. -/
def after {α : Type} (s : State) (f : State → α) : Option α :=
  match step s with
  | .next t => some (f t)
  | .fault _ => none
  | .refused _ => none

/-- The same after one execution of an instruction. -/
def afterExec {α : Type} (i : Instr) (s : State) (f : State → α) : Option α :=
  match exec i s with
  | .next t => some (f t)
  | .fault _ => none
  | .refused _ => none

/-- The record of a fatal condition. -/
def recorded (c : Cause) (a w : Word) : Option HaltRecord := some { cause := c, addr := a, word := w }

/-! ## WellFormed -/

theorem test_wf_accepts : (Instr.sys 0x100).wf = true ∧ (Instr.drwVxVyN 15 15 15).wf = true := by decide

/-- R92: `SYS 0x0AB` has no word. -/
theorem test_wf_refuses : (Instr.sys 0x0AB).wf = false ∧ (Instr.sys 0x0FF).wf = false := by decide

/-! ## Decoding: words of part 2.1, and the first of each group written bit by bit (R78) -/

theorem test_decode_jump :
    decodeWord 0b0001101010111101#16 = some (.jp 0xABD) ∧ decodeWord 0x0100 = some (.sys 0x100) ∧
    decodeWord 0x00EE = some .ret ∧ decodeWord 0x2ABC = some (.call 0xABC) ∧
    decodeWord 0xB300 = some (.jpV0Nnn 0x300) := by decide

theorem test_decode_skip :
    decodeWord 0b0101000100100000#16 = some (.seVxVy 1 2) ∧ decodeWord 0x3F00 = some (.seVxKk 15 0) ∧
    decodeWord 0x4A7F = some (.sneVxKk 10 0x7F) ∧ decodeWord 0x9120 = some (.sneVxVy 1 2) := by decide

theorem test_decode_alu :
    decodeWord 0b1000000100100100#16 = some (.addVxVy 1 2) ∧ decodeWord 0x6005 = some (.ldVxKk 0 5) ∧
    decodeWord 0x7203 = some (.addVxKk 2 3) ∧ decodeWord 0x8120 = some (.ldVxVy 1 2) ∧
    decodeWord 0x8121 = some (.orVxVy 1 2) ∧ decodeWord 0x8122 = some (.andVxVy 1 2) ∧
    decodeWord 0x8123 = some (.xorVxVy 1 2) ∧ decodeWord 0x8125 = some (.subVxVy 1 2) ∧
    decodeWord 0x8126 = some (.shrVx 1 2) ∧ decodeWord 0x8127 = some (.subnVxVy 1 2) ∧
    decodeWord 0x812E = some (.shlVx 1 2) := by decide

theorem test_decode_display :
    decodeWord 0b1101000100100101#16 = some (.drwVxVyN 1 2 5) ∧ decodeWord 0x00E0 = some .cls ∧
    decodeWord 0xC00F = some (.rndVxKk 0 0x0F) := by decide

theorem test_decode_keypad :
    decodeWord 0b1110000110011110#16 = some (.skpVx 1) ∧ decodeWord 0xE1A1 = some (.sknpVx 1) ∧
    decodeWord 0xF10A = some (.ldVxK 1) := by decide

theorem test_decode_transfer :
    decodeWord 0b1111000100110011#16 = some (.ldBVx 1) ∧ decodeWord 0xA2F0 = some (.ldINnn 0x2F0) ∧
    decodeWord 0xF107 = some (.ldVxDt 1) ∧ decodeWord 0xF115 = some (.ldDtVx 1) ∧
    decodeWord 0xF118 = some (.ldStVx 1) ∧ decodeWord 0xF11E = some (.addIVx 1) ∧
    decodeWord 0xF129 = some (.ldFVx 1) ∧ decodeWord 0xF155 = some (.ldMemVx 1) ∧
    decodeWord 0xF165 = some (.ldVxMem 1) := by decide

theorem test_decode_refuses :
    [0x0000#16, 0x00E1, 0x00FF, 0x00EF, 0x000E, 0x5121, 0x8128, 0x812F, 0x9121, 0xE100, 0xE1A0, 0xF100,
      0xF130, 0xF1FF].all (fun w => (decodeWord w).isNone) = true := by decide

/-- The bytes in their order, high byte first (R53). -/
theorem test_decode_bytes : decode [0x60, 0x05, 0xAA] = .ok (.ldVxKk 0 5, [0xAA]) := by decide

/-! ## Jumps, calls, returns (part 2.2) -/

/-- J1. -/
theorem test_sys : after (start 0x0123 []) (fun t => (t.PC, t.halt)) = some (0x202, none) := by decide

/-- J2, J3. -/
theorem test_jp : after (start 0x1200 []) (·.PC) = some 0x200 ∧
    after (start 0x1ABD []) (·.PC) = some 0x0ABD := by decide

/-- J6: the deepest legal call. -/
theorem test_call : after { start 0x2300 [] with SP := 14 } (fun t => (t.SP, t.stack[15], t.PC)) =
    some (15, 0x0202, 0x300) := by decide

/-- J7. -/
theorem test_call_overflow : after { start 0x2300 [] with SP := 15 } (fun t => (t.SP, t.PC, t.halt)) =
    some (15, 0x200, recorded .stackOverflow 0x200 0x2300) := by decide

/-- J10. -/
theorem test_ret :
    after { startAt 0x300 0x00EE [] with SP := 1, stack := State.reset.stack.set 1 0x0204 }
      (fun t => (t.PC, t.SP, t.stack[1])) = some (0x204, 0, 0x0204) := by decide

/-- J9. -/
theorem test_ret_underflow : after (start 0x00EE []) (fun t => (t.PC, t.SP, t.halt)) =
    some (0x200, 0, recorded .stackUnderflow 0x200 0x00EE) := by decide

/-- J14, J15. -/
theorem test_jpV0 : after (start 0xBFFF [(0, 0xFF)]) (·.PC) = some 0x10FE ∧
    after (start 0xB300 [(3, 0x10)]) (·.PC) = some 0x300 := by decide

/-! ## Skips (part 2.3) -/

/-- K1, K2. -/
theorem test_seKk : after (start 0x3005 [(0, 5)]) (·.PC) = some 0x204 ∧
    after (start 0x3005 [(0, 4)]) (·.PC) = some 0x202 := by decide

/-- K4, K5. -/
theorem test_sneKk : after (start 0x4311 [(3, 0x10)]) (·.PC) = some 0x204 ∧
    after (start 0x4310 [(3, 0x10)]) (·.PC) = some 0x202 := by decide

/-- K6, K7. -/
theorem test_seVy : after (start 0x5120 [(1, 7), (2, 7)]) (·.PC) = some 0x204 ∧
    after (start 0x5120 [(1, 7), (2, 8)]) (·.PC) = some 0x202 := by decide

/-- K9, K10. -/
theorem test_sneVy : after (start 0x9120 [(1, 7), (2, 8)]) (·.PC) = some 0x204 ∧
    after (start 0x9120 [(1, 7), (2, 7)]) (·.PC) = some 0x202 := by decide

/-! ## Loads and the ALU (part 2.4) -/

/-- A1. -/
theorem test_ldKk : after (start 0x6FFF []) (fun t => (t.v 15, t.PC)) = some (0xFF, 0x202) := by decide

/-- A3. -/
theorem test_addKk : after (start 0x7001 [(0, 0xFF), (15, 7)]) (fun t => (t.v 0, t.v 15)) =
    some (0, 7) := by decide

/-- A4. -/
theorem test_ldVy : after (start 0x8010 [(1, 0x2A)]) (fun t => (t.v 0, t.v 1)) =
    some (0x2A, 0x2A) := by decide

/-- A5. -/
theorem test_or : after (start 0x8011 [(0, 0x0F), (1, 0xF0), (15, 1)]) (fun t => (t.v 0, t.v 15)) =
    some (0xFF, 1) := by decide

/-- A6. -/
theorem test_and : after (start 0x8012 [(0, 0x3C), (1, 0x0F)]) (·.v 0) = some 0x0C := by decide

/-- A7. -/
theorem test_xor : after (start 0x8013 [(0, 0xFF), (1, 0x0F)]) (·.v 0) = some 0xF0 := by decide

/-- A10, A11. -/
theorem test_add_carry :
    after (start 0x8014 [(0, 0xFF), (1, 0), (15, 9)]) (fun t => (t.v 0, t.v 15)) = some (0xFF, 0) ∧
    after (start 0x8014 [(0, 0xFF), (1, 1)]) (fun t => (t.v 0, t.v 15)) = some (0, 1) := by decide

/-- A14, A15. -/
theorem test_add_flag_operand : after (start 0x8F14 [(15, 0xF0), (1, 0x20)]) (·.v 15) = some 0x10 ∧
    after (start 0x80F4 [(0, 0xFF), (15, 1)]) (fun t => (t.v 0, t.v 15)) = some (0, 1) := by decide

/-- A17, A19. -/
theorem test_sub :
    after (start 0x8015 [(0, 3), (1, 5), (15, 9)]) (fun t => (t.v 0, t.v 15)) = some (0xFE, 0) ∧
    after (start 0x8015 [(0, 5), (1, 5), (15, 9)]) (fun t => (t.v 0, t.v 15)) = some (0, 0) := by decide

/-- A22, A23. -/
theorem test_sub_flag_operand : after (start 0x8F15 [(15, 9), (1, 4)]) (·.v 15) = some 5 ∧
    after (start 0x80F5 [(0, 9), (15, 4)]) (fun t => (t.v 0, t.v 15)) = some (5, 1) := by decide

/-- A24, A25. -/
theorem test_subn : after (start 0x8017 [(0, 3), (1, 5)]) (fun t => (t.v 0, t.v 15)) = some (2, 1) ∧
    after (start 0x8017 [(0, 5), (1, 3)]) (fun t => (t.v 0, t.v 15)) = some (0xFE, 0) := by decide

/-- A31, A32. -/
theorem test_shr :
    after (start 0x8016 [(0, 4), (1, 0xFF)]) (fun t => (t.v 0, t.v 1, t.v 15)) = some (2, 0xFF, 0) ∧
    after (start 0x8F06 [(15, 3)]) (·.v 15) = some 1 := by decide

/-- A33, A36. -/
theorem test_shl : after (start 0x800E [(0, 0x81)]) (fun t => (t.v 0, t.v 15)) = some (2, 1) ∧
    after (start 0x8F0E [(15, 0xC1)]) (·.v 15) = some 0x82 := by decide

/-! ## Random and display (part 2.5) -/

/-- D1: whatever byte is drawn. -/
theorem test_rnd_mask_zero : after (start 0xC000 [(0, 0x55)]) (·.v 0) = some 0 := by
  show some (Config.randomByte 0 &&& 0#8) = some 0
  simp

/-- D14. -/
theorem test_cls : after { start 0x00E0 [(15, 3)] with screen := [0, 5, 2047] }
    (fun t => (t.screen, t.v 15)) = some ([], 3) := by decide

/-- D6: the row wraps; cell 64 * cy + cx. -/
theorem test_drw_wraps : after { poke (start 0xD011 [(0, 62)]) 0x300 [0xF0] with I := 0x300 }
    (fun t => (t.screen, t.v 15)) = some ([0, 1, 62, 63], 0) := by decide

/-- D9: one collision among two bits. -/
theorem test_drw_collides :
    after { poke (start 0xD001 []) 0x300 [0xC0] with I := 0x300, screen := [1] }
      (fun t => (t.screen, t.v 15)) = some ([0], 1) := by decide

/-! ## Keypad (part 2.6) -/

/-- Y7: the register's value, not the field. -/
theorem test_skp : after { start 0xE39E [] with keysDown := State.reset.keysDown.set 0 true } (·.PC) =
    some 0x204 := by decide

/-- Y5. -/
theorem test_skp_range : after (start 0xE09E [(0, 0x10)]) (fun t => (t.PC, t.halt)) =
    some (0x200, recorded (.keyIndexOutOfRange 0x10) 0x200 0xE09E) := by decide

/-- Y4. -/
theorem test_sknp : after (start 0xE0A1 [(0, 10)]) (·.PC) = some 0x204 := by decide

/-- Y6. -/
theorem test_sknp_range : after (start 0xE0A1 [(0, 0xFF)]) (·.halt) =
    some (recorded (.keyIndexOutOfRange 0xFF) 0x200 0xE0A1) := by decide

/-- Y8. -/
theorem test_ldK : after { start 0xF30A [] with keysDown := State.reset.keysDown.set 7 true }
    (fun t => (t.v 3, t.PC, t.wait)) = some (7, 0x202, .ready) := by decide

/-- Y10. -/
theorem test_ldK_waits : after (start 0xF30A [(3, 9)]) (fun t => (t.v 3, t.PC, t.wait)) =
    some (9, 0x200, .awaitingKey 3) := by decide

/-! ## Timers, index register, transfers (part 2.7) -/

/-- M1. -/
theorem test_ldI : after (start 0xA2F0 []) (·.I) = some 0x02F0 := by decide

/-- M2. -/
theorem test_ldVxDt : after { start 0xF207 [] with DT := 0x3C } (·.v 2) = some 0x3C := by decide

/-- M3. -/
theorem test_ldDt : after (start 0xF015 [(0, 60)]) (fun t => (t.DT, t.ST)) = some (60, 0) := by decide

/-- M4. -/
theorem test_ldSt : after (start 0xF118 [(1, 5)]) (fun t => (t.DT, t.ST)) = some (0, 5) := by decide

/-- M5, M6. -/
theorem test_addI :
    after { start 0xF01E [(0, 5)] with I := 0x0FFE } (fun t => (t.I, t.v 15)) = some (0x1003, 0) ∧
    after { start 0xF01E [(0, 2)] with I := 0xFFFF } (·.I) = some 0x0001 := by decide

/-- M7, M8. -/
theorem test_ldF : after (start 0xF029 [(0, 0x0A)]) (·.I) = some 0x0032 ∧
    after (start 0xF029 [(0, 0xFF)]) (·.I) = some 0x04FB := by decide

/-- M11. -/
theorem test_ldB : after { start 0xF033 [(0, 255)] with I := 0xFFD }
    (fun t => (t.memoryAt 0xFFD, t.memoryAt 0xFFE, t.memoryAt 0xFFF, t.I)) =
    some (2, 5, 5, 0xFFD) := by decide

/-- M12. -/
theorem test_ldB_range : after { start 0xF033 [(0, 255)] with I := 0xFFE }
    (fun t => (t.memoryAt 0xFFE, t.halt)) =
    some (0, recorded (.addressOutOfRange 0x1000) 0x200 0xF033) := by decide

/-- M13. -/
theorem test_ldMem : after { start 0xF255 [(0, 1), (1, 2), (2, 3)] with I := 0x400 }
    (fun t => (t.memoryAt 0x400, t.memoryAt 0x401, t.memoryAt 0x402, t.I)) =
    some (1, 2, 3, 0x400) := by decide

/-- M20: the font is writable. -/
theorem test_ldMem_font : after (start 0xF055 [(0, 0xAB)]) (fun t => (t.memoryAt 0, t.memoryAt 1)) =
    some (0xAB, 0x90) := by decide

/-- M16. -/
theorem test_ldVxMem : after { poke (start 0xF165 [(2, 7)]) 0x400 [0xAA, 0xBB] with I := 0x400 }
    (fun t => (t.v 0, t.v 1, t.v 2)) = some (0xAA, 0xBB, 7) := by decide

/-- M18. -/
theorem test_ldVxMem_range : after { start 0xF065 [] with I := 0x1000 } (·.halt) =
    some (recorded (.addressOutOfRange 0x1000) 0x200 0xF065) := by decide

/-! ## Step cycle, faults, messages (part 2.8) -/

/-- F1. -/
theorem test_unknown : after (runningAt 0x200) (fun t => (t.PC, t.halt)) =
    some (0x200, recorded .unknownOpcode 0x200 0) := by decide

/-- F5: an odd address. -/
theorem test_odd_pc : after (startAt 0x201 0x6005 []) (fun t => (t.v 0, t.PC)) = some (5, 0x203) := by
  decide

/-- F7. -/
theorem test_fetch_range : after (runningAt 0xFFF) (·.halt) =
    some (recorded (.addressOutOfRange 0x1000) 0xFFF 0) := by decide

/-- F8: paused; log 2: `withFetchWord` starts the machine. -/
theorem test_paused : after State.reset id = some State.reset ∧
    after (State.reset.withFetchWord 16 0x6005) (·.v 0) = some 5 := by decide

/-- F9. -/
theorem test_tick60 : after { State.reset with DT := 1, schedule := [.outside .tick60] }
    (fun t => (t.DT, t.ST)) = some (0, 0) := by decide

/-- F4. -/
theorem test_reset_leaves_halt :
    after { State.reset with
        halt := recorded .unknownOpcode 0x200 0, PC := 0x300, runState := .running, msgQueue := [.reset],
        schedule := [.outside .drain] }
      (fun t => (t.halt, t.PC, t.runState, t.msgQueue)) = some (none, 0x200, .running, []) := by decide

/-- R260 with another `FONT`, and F16: a damaged font is restored. -/
theorem test_reset_font :
    (State.resetUnder (Vector.replicate 80 0xAA)).memoryAt 0 = 0xAA ∧
    (State.resetUnder (Vector.replicate 80 0xAA)).memoryAt 79 = 0xAA ∧
    (State.resetUnder (Vector.replicate 80 0xAA)).memoryAt 80 = 0 ∧
    (poke State.reset 0 [0xAB]).resetMachine.memoryAt 0 = 0xF0 := by decide

/-- F15: the tail of the old ROM stays. -/
theorem test_load_rom_tail :
    ((State.reset.process (.loadROM [1, 2, 3, 4])).process (.loadROM [0x12, 0x00])).memory =
      [(0x200, 0x12), (0x202, 3), (0x203, 4)] := by decide

/-! ## Witnesses: for each obligation with hypotheses, a state and operands that meet them all, one for
each clause, at the values where clauses meet -/

/-- The schedule's two forms of `TickNext`. -/
theorem witness_tick_next : TickNext State.reset ∧
    TickNext { State.reset with schedule := [.stepTick, .outside .tick60] } :=
  ⟨.inl rfl, .inr ⟨_, rfl⟩⟩

theorem witness_can_execute (pc : Word) : TickNext (runningAt pc) ∧ CanExecute (runningAt pc) :=
  ⟨.inl rfl, rfl, rfl, rfl⟩

theorem witness_DecodeOfEncodeIsTheInstruction :
    (Instr.sys 0x100).wf = true ∧ (Instr.ldVxMem 15).wf = true ∧ (0xFF : Addr12).toNat < 0x100 := by
  decide

theorem witness_DecodedWordIsItsEncoding : decodeWord 0x0100 = some (.sys 0x100) := by decide

/-- The last address a fetch can use. -/
theorem witness_StepRunsTheDecodedInstruction :
    TickNext (startAt 0xFFE 0x6005 []) ∧ CanExecute (startAt 0xFFE 0x6005 []) ∧
    (startAt 0xFFE 0x6005 []).PC.toNat ≤ 0xFFE ∧
    decode [(startAt 0xFFE 0x6005 []).memoryAt 0xFFE, (startAt 0xFFE 0x6005 []).memoryAt 0xFFF] =
      .ok (.ldVxKk 0 5, []) :=
  ⟨.inl rfl, ⟨rfl, rfl, rfl⟩, by decide, by decide⟩

theorem witness_PlacedWordRunsNext : decodeWord 0xD125 = some (.drwVxVyN 1 2 5) := by decide

/-- Each condition of `StepTickByCondition`. -/
theorem witness_StepTickByCondition :
    CanExecute (runningAt 0x200) ∧
    ({ runningAt 0x200 with wait := .awaitingKey 3 } : State).wait = .awaitingKey 3 ∧
    State.reset.runState ≠ .running ∧
    ({ runningAt 0x200 with halt := recorded .unknownOpcode 0x200 0 } : State).halt ≠ none :=
  ⟨⟨rfl, rfl, rfl⟩, rfl, by decide, by decide⟩

/-- 0xFFF, 0x1000 and the largest `PC`. -/
theorem witness_FetchAboveMemoryHalts : 0xFFF ≤ (runningAt 0xFFF).PC.toNat ∧
    (runningAt 0x1000).PC.toNat ≤ 0x1000 ∧ ¬ (runningAt 0x10FE).PC.toNat ≤ 0x1000 ∧
    CanExecute (runningAt 0x10FE) :=
  ⟨by decide, by decide, by decide, rfl, rfl, rfl⟩

theorem witness_UnrecognisedWordHalts : CanExecute (runningAt 0xFFE) ∧
    (runningAt 0xFFE).PC.toNat ≤ 0xFFE ∧
    decodeWord (wordAt (runningAt 0xFFE) (runningAt 0xFFE).PC.toNat) = none :=
  ⟨⟨rfl, rfl, rfl⟩, by decide, by decide⟩

/-- A condition of the handler, and one of the fetch. -/
theorem witness_FatalStepChangesOnlyHalt :
    after (startAt 0xFFE 0x00EE []) (fun t => (t.halt, t.PC.toNat)) =
      some (recorded .stackUnderflow 0xFFE 0x00EE, 0xFFE) ∧
    after (runningAt 0xFFF) (fun t => t.halt.isSome) = some true := by decide

/-- The four conditions a handler raises. -/
theorem witness_EachConditionHasItsInstructions :
    afterExec (.call 0x300) { State.reset with SP := 15 } (·.halt) =
      some (recorded .stackOverflow 0x200 0x2300) ∧
    afterExec .ret State.reset (·.halt) = some (recorded .stackUnderflow 0x200 0x00EE) ∧
    afterExec (.ldBVx 0) { State.reset with I := 0xFFFF } (·.halt) =
      some (recorded (.addressOutOfRange 0xFFFF) 0x200 0xF033) ∧
    afterExec (.drwVxVyN 0 0 2) { State.reset with I := 0xFFF } (·.halt) =
      some (recorded (.addressOutOfRange 0x1000) 0x200 0xD002) ∧
    afterExec (.ldMemVx 15) { State.reset with I := 0xFF1 } (·.halt) =
      some (recorded (.addressOutOfRange 0x1000) 0x200 0xFF55) ∧
    afterExec (.ldVxMem 0) { State.reset with I := 0x1000 } (·.halt) =
      some (recorded (.addressOutOfRange 0x1000) 0x200 0xF065) ∧
    afterExec (.skpVx 0) (start 0xE09E [(0, 16)]) (·.halt) =
      some (recorded (.keyIndexOutOfRange 16) 0x200 0xE09E) := by decide

theorem witness_EveryStepAnswersANextState : State.reset.SpOk ∧
    ({ State.reset with SP := 15 } : State).SpOk ∧
    exec .ret { State.reset with SP := 16 } = .fault .stackPointerOutOfRange :=
  ⟨by decide, by decide, rfl⟩

/-- A halted machine under a `step_tick`, a drain with a `Reset`, a drain without. -/
theorem witness_HaltIsLeftOnlyByReset :
    after { runningAt 0x200 with halt := recorded .unknownOpcode 0x200 0 } (·.halt) =
      some (recorded .unknownOpcode 0x200 0) ∧
    after { runningAt 0x200 with
        halt := recorded .unknownOpcode 0x200 0, msgQueue := [.setPaused, .setRunning],
        schedule := [.outside .drain] } (·.halt) = some (recorded .unknownOpcode 0x200 0) ∧
    after { runningAt 0x200 with
        halt := recorded .unknownOpcode 0x200 0, msgQueue := [.setPaused, .reset],
        schedule := [.outside .drain] } (·.halt) = some none := by decide

theorem witness_RegistersWrittenByEachInstruction :
    afterExec (.ldVxKk 3 7) State.reset (fun t => decide (t.v 3 ≠ State.reset.v 3)) = some true := by decide

/-- A next state without and with a condition. -/
theorem witness_PcAfterEachInstruction : State.reset.halt = none ∧
    afterExec .cls State.reset (fun t => t.halt.isNone) = some true ∧
    afterExec .ret State.reset (fun t => t.halt.isNone) = some false := by decide

/-- Each piece of state changed by some instruction. -/
theorem witness_StateWrittenByEachInstruction :
    afterExec (.ldINnn 5) State.reset (fun t => decide (t.I ≠ 0)) = some true ∧
    afterExec (.call 5) State.reset (fun t => decide (t.SP ≠ 0)) = some true ∧
    afterExec (.call 5) State.reset (fun t => decide (t.stack ≠ State.reset.stack)) = some true ∧
    afterExec (.ldDtVx 0) (start 0 [(0, 1)]) (fun t => decide (t.DT ≠ 0)) = some true ∧
    afterExec (.ldStVx 0) (start 0 [(0, 1)]) (fun t => decide (t.ST ≠ 0)) = some true ∧
    afterExec (.ldMemVx 0) State.reset (fun t => decide (t.memory ≠ [])) = some true ∧
    afterExec (.drwVxVyN 0 0 1) State.reset (fun t => decide (t.screen ≠ [])) = some true ∧
    afterExec (.ldVxK 0) State.reset (fun t => decide (t.wait ≠ .ready)) = some true ∧
    afterExec (.ldVxK 0) { State.reset with keysDown := Vector.replicate 16 true }
      (fun t => decide (t.draws ≠ 0)) = some true := by
  refine ⟨?_, ?_, ?_, ?_, ?_, ?_, ?_, ?_, rfl⟩ <;> decide

/-- The ends of the range: `CALL` from 14, `RET` from 1, and the two conditions. -/
theorem witness_StackPointerStaysInRange :
    afterExec (.call 5) { State.reset with SP := 14 } (·.SP) = some 15 ∧
    afterExec .ret { State.reset with SP := 1 } (·.SP) = some 0 ∧
    ({ State.reset with SP := 15 } : State).SP = 15 ∧ State.reset.SP = 0 := by decide

theorem witness_JumpSetsPc : (0x200 : Addr12).toNat = (runningAt 0x200).PC.toNat ∧
    CanExecute (runningAt 0x200) ∧ (runningAt 0x200).schedule = [] :=
  ⟨by decide, ⟨rfl, rfl, rfl⟩, rfl⟩

theorem witness_CallPushesAndJumps : State.reset.SP.toNat < 15 ∧
    ({ State.reset with SP := 14 } : State).SP.toNat < 15 := by decide

theorem witness_ReturnPopsAndJumps :
    ({ State.reset with SP := 15 } : State).SP.toNat = (15 : Fin 16).val ∧ (15 : Fin 16) ≠ 0 ∧
    ({ State.reset with SP := 1 } : State).SP.toNat = (1 : Fin 16).val := by decide

theorem witness_ReturnUndoesCall : ({ State.reset with SP := 14 } : State).SP.toNat < 15 ∧
    ∃ t, exec (.call 0x300) { State.reset with SP := 14 } = .next t := ⟨by decide, _, rfl⟩

/-- The skip at 0xFFC and at 0xFFE, taken; and a register that differs. -/
theorem witness_SkipIfEqualByte :
    (runningAt 0xFFC).PC.toNat ≤ 0xFFE ∧ 0x1000 ≤ ((runningAt 0xFFC).PC + 4).toNat ∧
    (runningAt 0xFFE).PC.toNat ≤ 0xFFE ∧ 0x1000 ≤ ((runningAt 0xFFE).PC + 4).toNat ∧
    (runningAt 0xFFC).v 3 = 0 ∧ (runningAt 0xFFC).v 3 ≠ 1 ∧ (runningAt 0xFFC).schedule = [] ∧
    ∃ t, exec (.seVxKk 3 0) (runningAt 0xFFC) = .next t :=
  ⟨by decide, by decide, by decide, by decide, by decide, by decide, rfl, _, rfl⟩

theorem witness_OtherRegisterSkips : (start 0 [(1, 7)]).v 1 ≠ 8 ∧ (start 0 [(1, 7)]).v 1 = 7 ∧
    (start 0 [(1, 7), (2, 7)]).v 1 = (start 0 [(1, 7), (2, 7)]).v 2 ∧
    (start 0 [(1, 7)]).v 1 ≠ (start 0 [(1, 7)]).v 2 := by decide

theorem witness_ArithmeticWithFlag : (14 : Reg) ≠ 15 := by decide

theorem witness_RandomIsMasked : (0x0F : Byte).getLsbD (4 : Fin 8) = false ∧ (0 : Byte) = 0 := by decide

/-- Both ways the sprite is no fault: none, and one that ends at the last byte; 15 is a register too. -/
theorem witness_DrawXorsTheSprite :
    ((0 : Nibble) = 0) ∧ ({ State.reset with I := 0xFF1 } : State).indexAddr + (15 : Nibble).toNat ≤ 0x1000 ∧
    (0 < width State.reset) ∧ (31 < height State.reset) ∧
    (63 < height { State.reset with hires := true }) := by decide

theorem witness_DrawTwiceRestoresTheScreen :
    State.reset.indexAddr + (5 : Nibble).toNat ≤ 0x1000 ∧ (0 : Reg) ≠ 15 ∧
    ∃ t, exec (.drwVxVyN 0 1 5) State.reset = .next t := ⟨by decide, by decide, _, rfl⟩

/-- 15 names a key, 16 none. -/
theorem witness_KeySkips : ((start 0 [(0, 15)]).v 0).toNat = (15 : Key).val ∧
    15 < ((start 0 [(0, 16)]).v 0).toNat := by decide

/-- No key down; two keys down, of which any may be taken. -/
theorem witness_WaitForKeyInstruction : (∀ k : Key, State.reset.keysDown[k] = false) ∧
    ∃ k : Key, ({ State.reset with keysDown := (State.reset.keysDown.set 2 true).set 9 true } :
      State).keysDown[k] = true := ⟨by decide, 9, by decide⟩

/-- Y11 and Y12. -/
theorem witness_WaitCheckCompletes :
    TickNext { runningAt 0x200 with wait := .awaitingKey 3 } ∧
    after { runningAt 0x200 with wait := .awaitingKey 3 } (fun t => (t.v 3, t.PC, t.wait)) =
      some (0, 0x200, .awaitingKey 3) ∧
    after { runningAt 0x200 with wait := .awaitingKey 3, keysDown := State.reset.keysDown.set 12 true }
      (fun t => (t.v 3, t.PC, t.wait)) = some (12, 0x202, .ready) :=
  ⟨.inl rfl, by decide, by decide⟩

theorem witness_WaitIsReexecution :
    ({ startAt 0xFFE 0xF30A [] with wait := .awaitingKey 3 } : State).PC.toNat ≤ 0xFFE ∧
    ({ startAt 0xFFE 0xF30A [] with wait := .awaitingKey 3 } : State).runState = .running ∧
    wordAt { startAt 0xFFE 0xF30A [] with wait := .awaitingKey 3 } 0xFFE = encode (.ldVxK 3) := by decide

theorem witness_BcdDigitsAreStored :
    ({ State.reset with I := 0xFFD } : State).indexAddr + 3 ≤ 0x1000 := by decide

theorem witness_RegistersAreStored :
    ({ State.reset with I := 0xFF0 } : State).indexAddr + ((15 : Reg).toNat + 1) ≤ 0x1000 := by decide

theorem witness_RegistersAreLoaded :
    ({ State.reset with I := 0xFFF } : State).indexAddr + ((0 : Reg).toNat + 1) ≤ 0x1000 := by decide

/-- Each instruction one byte too far, and an `I` above memory. -/
theorem witness_DataAccessAboveMemoryHalts :
    0x1000 < ({ State.reset with I := 0xFFF } : State).I.toNat + (2 : Nibble).toNat ∧
    0x1000 < ({ State.reset with I := 0xFFE } : State).I.toNat + 3 ∧
    0x1000 < ({ State.reset with I := 0xFF1 } : State).I.toNat + ((15 : Reg).toNat + 1) ∧
    0x1000 < ({ State.reset with I := 0xFFFF } : State).I.toNat + ((0 : Reg).toNat + 1) := by decide

theorem witness_StoreThenLoadRestoresRegisters :
    ({ State.reset with I := 0xFF0 } : State).indexAddr + ((15 : Reg).toNat + 1) ≤ 0x1000 ∧
    ∃ t, exec (.ldMemVx 15) { State.reset with I := 0xFF0 } = .next t := ⟨by decide, _, rfl⟩

/-- The store at 0xFFC, the stored instruction at the last address. -/
theorem witness_StoredInstructionRunsNext :
    let s : State := { startAt 0xFFC 0xF155 [(0, 0x12), (1, 0x08)] with I := 0xFFE }
    CanExecute s ∧ s.schedule = [] ∧ s.PC.toNat + 4 ≤ 0x1000 ∧ s.I = s.PC + 2 ∧
      decodeWord (wordOfBytes (s.v 0) (s.v 1)) = some (.jp 0x208) ∧ ∃ t, exec (.ldMemVx 1) s = .next t :=
  ⟨⟨rfl, rfl, rfl⟩, rfl, by decide, by decide, by decide, _, rfl⟩

theorem witness_TimersNeverUnderflow :
    ({ State.reset with schedule := [.outside .tick60] } : State).schedule = .outside .tick60 :: [] := rfl

/-- A key pressed, and one released that is the last one. -/
theorem witness_KeyEventsSetTheirFlag :
    after { State.reset with schedule := [.outside (.keyDown 7)] }
      (fun t => (t.keysDown[7], t.lastKey)) = some (true, some 7) ∧
    after { State.reset with schedule := [.outside (.keyUp 7)], lastKey := some 7 } (·.lastKey) =
      some none ∧
    after { State.reset with schedule := [.outside (.keyUp 7)], lastKey := some 8 } (·.lastKey) =
      some (some 8) := by decide

/-- The longest ROM and the empty one. -/
theorem witness_LoadRomWritesItsBytes : (List.replicate 0xDFF (0xAA : Byte)).length ≤ 0xDFF ∧
    ([] : List Byte).length ≤ 0xDFF := by
  rw [List.length_replicate]; decide

/-- The shortest ROM refused, the longest retry; and a `step_tick` that answers. -/
theorem witness_TooLargeRomChangesNothing : 0xE00 ≤ (List.replicate 0xE00 (0xAA : Byte)).length ∧
    (List.replicate 0xDFF (0xAA : Byte)).length < 0xE00 ∧
    TickNext State.reset ∧ ∃ t, step State.reset = .next t :=
  ⟨by rw [List.length_replicate], by rw [List.length_replicate]; decide, .inl rfl, _, rfl⟩

/-- A send while halted, and a drain. -/
theorem witness_DrainProcessesEveryMessage :
    after { State.reset with
        halt := recorded .unknownOpcode 0x200 0, msgQueue := [.reset],
        schedule := [.outside (.send .setPaused)] } (·.msgQueue) = some [.reset, .setPaused] ∧
    after { State.reset with msgQueue := [.reset, .setRunning], schedule := [.outside .drain] }
      (fun t => (t.msgQueue, t.reports)) = some ([], [.success, .success]) := by decide

theorem witness_BootFromReset : ([0x12, 0x00] : List Byte).length ≤ 0xDFF := by decide

theorem witness_StepKeepsTheInvariant : State.reset.Inv ∧ ∃ t, step State.reset = .next t :=
  ⟨⟨by decide, by decide, by decide, by decide, by decide, by decide, by decide, by decide⟩, _, rfl⟩

/-- The invariant also holds while a key is awaited at the last address, with the stack full. -/
theorem witness_StepKeepsTheInvariant_waiting :
    ({ runningAt 0xFFE with SP := 15, wait := .awaitingKey 3 } : State).Inv :=
  ⟨by decide, by decide, by decide, by decide, by decide, by decide, by decide, by decide⟩

theorem witness_LowResCellsStayInTheMode : ({ State.reset with screen := [0, 2047] } : State).ScreenOk ∧
    State.reset.hires = false ∧ ∃ t, step State.reset = .next t := ⟨by decide, rfl, _, rfl⟩

/-- The first and the last byte of the font, and the first above it. -/
theorem witness_ResetValues : 79 < 80 ∧ 80 ≤ 80 := by decide

/-- S2: `JP 0x200` at 0x200. -/
theorem witness_EndedRunStaysEnded : (start 0x1200 []).endedNormally = true ∧ TickNext (start 0x1200 []) :=
  ⟨by decide, .inl rfl⟩

end Sys2Proof.Tests
end

section
/-! PROOFS. The operand fields of a word as natural numbers (spec/00_scope R10). -/

namespace Sys2Proof

/-! ### A field of a word, by shift and mask -/

/-- A bit slice is the source's "shift right, then mask" form (R10). -/
theorem toNat_extractLsb'_eq_shiftRight_and {m : Nat} (b : BitVec m) (start len : Nat) :
    (b.extractLsb' start len).toNat = (b.toNat >>> start) &&& (2 ^ len - 1) := by
  rw [BitVec.extractLsb'_toNat, Nat.and_two_pow_sub_one_eq_mod]

theorem fieldNnn_toNat (w : Word) : (fieldNnn w).toNat = w.toNat &&& 0x0FFF :=
  toNat_extractLsb'_eq_shiftRight_and w 0 12

theorem fieldX_toNat (w : Word) : (fieldX w).toNat = (w.toNat >>> 8) &&& 0xF :=
  toNat_extractLsb'_eq_shiftRight_and w 8 4

theorem fieldY_toNat (w : Word) : (fieldY w).toNat = (w.toNat >>> 4) &&& 0xF :=
  toNat_extractLsb'_eq_shiftRight_and w 4 4

theorem fieldKk_toNat (w : Word) : (fieldKk w).toNat = w.toNat &&& 0xFF :=
  toNat_extractLsb'_eq_shiftRight_and w 0 8

theorem fieldN_toNat (w : Word) : (fieldN w).toNat = w.toNat &&& 0xF :=
  toNat_extractLsb'_eq_shiftRight_and w 0 4

/-- The top nibble needs no mask: a word has no bit above bit 15. -/
theorem nib0_toNat (w : Word) : (nib0 w).toNat = w.toNat >>> 12 := by
  have hlt : w.toNat >>> 12 < 2 ^ 4 := by have := w.isLt; omega
  exact (BitVec.extractLsb'_toNat ..).trans (Nat.mod_eq_of_lt hlt)

/-- Settles O1: each field is a bit slice of the word, hence a shift and a mask; the inner nibbles are
the fields by definition, and a register is read at its own number in `V`. -/
theorem codecFieldsOfEveryWord : Obligations.CodecFieldsOfEveryWord := fun w _ _ =>
  ⟨fieldNnn_toNat w, fieldX_toNat w, fieldY_toNat w, fieldKk_toNat w, fieldN_toNat w,
    nib0_toNat w, rfl, rfl, rfl, rfl, rfl, rfl⟩

end Sys2Proof
end

section
/-! PROOFS. What a `step_tick` does in each condition, and the step at an unrecognised word
(spec/40_step_cycle R100, R103). -/

namespace Sys2Proof.Machine

open Sys2Proof.Claims

/-! ### The transition of a `step_tick` and its schedule entry (log 1) -/

/-- Both forms of `TickNext` come to one: the tick runs on the state with its entry taken. -/
theorem step_eq_tick_ticked {s : State} (hnext : TickNext s) : step s = tick (Ticked s) := by
  rcases hnext with hnil | ⟨rest, hcons⟩
  · have hsame : Ticked s = s := by rw [Ticked, hnil, List.tail_nil, ← hnil]
    rw [hsame, step, hnil]
  · rw [step, Ticked, hcons, List.tail_cons]

/-! ### A `step_tick` by the row of R211's table -/

theorem RunState.ne_running_iff (r : RunState) : r ≠ .running ↔ r = .paused := by
  cases r <;> decide

theorem tick_eq_next_of_nothing {s : State} (hact : s.tickAction = .nothing) : tick s = .next s := by
  rw [tick, hact]

theorem tick_eq_waitCheck {s : State} {x : Reg} (hact : s.tickAction = .checkWait x) :
    tick s = .next (s.waitCheck x) := by
  rw [tick, hact]

theorem tick_eq_exec {s : State} {i : Instr} (hexec : CanExecute s) (hi : s.fetchDecode = .ok i) :
    tick s = exec i s := by
  rw [tick, s.tickAction_eq_execute_iff.2 hexec, hi]

theorem tick_eq_next_of_fetchDecode_error {s t : State} (hexec : CanExecute s)
    (ht : s.fetchDecode = .error t) : tick s = .next t := by
  rw [tick, s.tickAction_eq_execute_iff.2 hexec, ht]

/-! ### Fetch and decode below the limit (R53, R101, R103) -/

theorem State.fetch_eq_wordAt {s : State} (hpc : s.PC.toNat ≤ 0xFFE) :
    s.fetch = .ok (wordAt s s.PC.toNat) := by
  rcases s.fetch_cases with ⟨habove, -⟩ | ⟨-, hfetch⟩
  · omega
  · exact hfetch

theorem State.fetchDecode_eq_unknownOpcode {s : State} (hpc : s.PC.toNat ≤ 0xFFE)
    (hword : decodeWord (wordAt s s.PC.toNat) = none) :
    s.fetchDecode = .error (s.raise .unknownOpcode (wordAt s s.PC.toNat)) := by
  simp only [State.fetchDecode, State.fetch_eq_wordAt hpc, hword]

/-! ### The obligations -/

/-- Settles O10: the step is the tick of the state with its entry taken, and each condition selects its
row of R211's table; the executing row then splits on what fetch and decode come to. -/
theorem stepTickByCondition : Obligations.StepTickByCondition := by
  intro s hnext
  rw [step_eq_tick_ticked hnext]
  refine ⟨fun hexec => ?_, fun x hhalt hrun hwait => ?_, fun hidle => ?_⟩
  · cases hfd : (Ticked s).fetchDecode with
    | ok i => exact tick_eq_exec hexec hfd
    | error halted => exact tick_eq_next_of_fetchDecode_error hexec hfd
  · exact tick_eq_waitCheck (((Ticked s).tickAction_eq_checkWait_iff x).2 ⟨hhalt, hrun, hwait⟩)
  · rw [RunState.ne_running_iff] at hidle
    exact tick_eq_next_of_nothing ((Ticked s).tickAction_eq_nothing_iff.2 hidle)

/-- Settles O12: below the limit the fetch reads the word at `PC`, and a word without an instruction
ends the tick in `State.raise`, which writes `halt` alone. -/
theorem unrecognisedWordHalts : Obligations.UnrecognisedWordHalts := by
  intro s hnext hexec hpc hword
  have hfd := State.fetchDecode_eq_unknownOpcode (s := Ticked s) hpc hword
  have hstep := (step_eq_tick_ticked hnext).trans (tick_eq_next_of_fetchDecode_error hexec hfd)
  exact ⟨_, hstep, rfl, rfl⟩

end Sys2Proof.Machine
end

section
/-! PROOFS. The jump to `nnn` (spec/41_jump_call R122). -/

namespace Sys2Proof.Machine

open Sys2Proof.Claims

/-! ### The word and the target -/

theorem decodeWord_formatA_jp (nnn : Addr12) : decodeWord (0x1#4 ++ nnn) = some (.jp nnn) := by
  simp only [decodeWord, nib0_formatA, fieldNnn_formatA]

@[simp] theorem toNat_immAddr (nnn : Addr12) : (immAddr nnn).toNat = nnn.toNat :=
  BitVec.toNat_setWidth_of_le (by decide)

theorem State.jump_PC_self (s : State) : s.jump s.PC = s := rfl

/-! ### The step at an address whose fetch passes memory (R101) -/

theorem State.fetchDecode_eq_addressOutOfRange {s : State} (hpc : 0xFFF ≤ s.PC.toNat) :
    s.fetchDecode = .error (s.raise (.addressOutOfRange (max s.PC.toNat 0x1000)) 0) := by
  rcases s.fetch_cases with ⟨-, hfetch⟩ | ⟨hbelow, -⟩
  · rw [State.fetchDecode, hfetch]
  · omega

theorem tick_eq_raise_addressOutOfRange {s : State} (hexec : CanExecute s) (hpc : 0xFFF ≤ s.PC.toNat) :
    tick s = .next (s.raise (.addressOutOfRange (max s.PC.toNat 0x1000)) 0) :=
  tick_eq_next_of_fetchDecode_error hexec (State.fetchDecode_eq_addressOutOfRange hpc)

theorem step_eq_raise_addressOutOfRange {s : State} (hsched : s.schedule = []) (hexec : CanExecute s)
    (hpc : 0xFFF ≤ s.PC.toNat) :
    step s = .next (s.raise (.addressOutOfRange (max s.PC.toNat 0x1000)) 0) := by
  rw [step, hsched]
  exact tick_eq_raise_addressOutOfRange hexec hpc

/-! ### The obligation -/

/-- Settles O22: a jump is one update of `PC`, to a word of the same value as `nnn`. A target equal to
`PC` writes back what stands there; 0xFFF is the lowest `PC` whose two-byte fetch passes memory, and
0x1000 is the byte that fetch misses. -/
theorem jumpSetsPc : Obligations.JumpSetsPc := by
  intro s nnn
  refine ⟨decodeWord_formatA_jp nnn, s.jump (immAddr nnn), rfl, toNat_immAddr nnn, rfl, ?_, ?_⟩
  · intro hself
    have htarget : immAddr nnn = s.PC := BitVec.eq_of_toNat_eq ((toNat_immAddr nnn).trans hself)
    rw [htarget, State.jump_PC_self]
  · rintro rfl hexec hsched
    have hstep := step_eq_raise_addressOutOfRange (s := s.jump (immAddr 0xFFF)) hsched hexec
      (toNat_immAddr 0xFFF).ge
    exact ⟨_, hstep, rfl⟩

end Sys2Proof.Machine
end

section
/-! PROOFS. The skip on an immediate byte (spec/42_skip R130). -/

namespace Sys2Proof.Machine

open Sys2Proof.Claims

/-! ### The word and the skip -/

theorem decodeWord_formatXK_seVxKk (x : Reg) (kk : Byte) :
    decodeWord (0x3#4 ++ x ++ kk) = some (.seVxKk x kk) := by
  simp only [decodeWord, nib0_formatXK, fieldX_formatXK, fieldKk_formatXK]

theorem exec_seVxKk (x : Reg) (kk : Byte) (s : State) :
    exec (.seVxKk x kk) s = .next (s.jump (if s.v x = kk then s.PC + 4 else s.PC + 2)) := by
  simp only [exec, execSeVxKk, State.skipIf_eq, beq_iff_eq]

theorem exec_seVxKk_of_eq {s : State} {x : Reg} {kk : Byte} (heq : s.v x = kk) :
    exec (.seVxKk x kk) s = .next (s.jump (s.PC + 4)) := by
  rw [exec_seVxKk, if_pos heq]

theorem exec_seVxKk_of_ne {s : State} {x : Reg} {kk : Byte} (hne : s.v x ≠ kk) :
    exec (.seVxKk x kk) s = .next (s.jump (s.PC + 2)) := by
  rw [exec_seVxKk, if_neg hne]

/-! ### The skip past the end of memory (R101) -/

/-- The target of a skip from an address that was fetched does not wrap. -/
theorem toNat_add_four_of_fetched {pc : Word} (hfetched : pc.toNat ≤ 0xFFE) :
    (pc + 4).toNat = pc.toNat + 4 :=
  BitVec.toNat_add_of_lt (show pc.toNat + 4 < 2 ^ 16 by omega)

/-- The step after a jump to 0x1000 or above: the target itself is the lowest byte that is not there. -/
theorem step_jump_eq_raise_addressOutOfRange {s : State} {target : Word} (hsched : s.schedule = [])
    (hexec : CanExecute s) (habove : 0x1000 ≤ target.toNat) :
    step (s.jump target) = .next ((s.jump target).raise (.addressOutOfRange target.toNat) 0) := by
  have hstep := step_eq_raise_addressOutOfRange (s := s.jump target) hsched hexec
    (Nat.le_of_succ_le habove)
  rwa [State.jump_PC, max_eq_left habove] at hstep

/-! ### The obligation -/

/-- Settles O27: both outcomes are one update of `PC`, and the word at `PC + 2` is never read. A target
at 0x1000 or above is reached from a fetched address only within four bytes of the end, and it is the
byte that the next fetch misses. -/
theorem skipIfEqualByte : Obligations.SkipIfEqualByte := by
  intro s x kk
  refine ⟨decodeWord_formatXK_seVxKk x kk, exec_seVxKk_of_eq, exec_seVxKk_of_ne, ?_⟩
  intro hfetched habove
  have htarget := toNat_add_four_of_fetched hfetched
  refine ⟨by omega, fun heq hexec hsched t ht => ?_⟩
  cases (exec_seVxKk_of_eq heq).symm.trans ht
  have hstep := step_jump_eq_raise_addressOutOfRange hsched hexec habove
  rw [htarget] at hstep
  exact ⟨_, hstep, rfl⟩

end Sys2Proof.Machine
end

section
/-! PROOFS. The load of an immediate byte (spec/43_alu R140). -/

namespace Sys2Proof.Machine

open Sys2Proof.Claims

theorem decodeWord_formatXK_ldVxKk (x : Reg) (kk : Byte) :
    decodeWord (0x6#4 ++ x ++ kk) = some (.ldVxKk x kk) := by
  simp only [decodeWord, nib0_formatXK, fieldX_formatXK, fieldKk_formatXK]

/-- The effect shared by every instruction that loads one register and goes on. -/
theorem writesOnly_setV_advance (s : State) (x : Reg) (b : Byte) :
    WritesOnly s (s.setV x b).advance x b :=
  ⟨s.v_setV_same x b, fun _ hne => s.v_setV_other b hne, rfl⟩

/-- Settles O29: the handler is one register write and the move past the instruction, so `VF` is
written only where it is the destination. -/
theorem loadByte : Obligations.LoadByte := fun s x kk =>
  ⟨decodeWord_formatXK_ldVxKk x kk, _, rfl, writesOnly_setV_advance s x kk⟩

end Sys2Proof.Machine
end

section
/-! PROOFS. The shifts by one (spec/43_alu R148, R150). -/

namespace Sys2Proof.Machine

open Sys2Proof.Claims

/-! ### The words -/

theorem decodeWord_formatXY_shrVx (x y : Reg) :
    decodeWord (0x8#4 ++ x ++ y ++ 0x6#4) = some (.shrVx x y) := by
  simp only [decodeWord, nib0_formatXY, decode8, nib3_formatXY, fieldX_formatXY, fieldY_formatXY]

theorem decodeWord_formatXY_shlVx (x y : Reg) :
    decodeWord (0x8#4 ++ x ++ y ++ 0xE#4) = some (.shlVx x y) := by
  simp only [decodeWord, nib0_formatXY, decode8, nib3_formatXY, fieldX_formatXY, fieldY_formatXY]

/-! ### The bit shifted out and the result, as natural numbers -/

theorem lowBitFlag_eq (a : Byte) : lowBitFlag a = decide (a.toNat % 2 = 1) := by
  rw [lowBitFlag, BitVec.getLsbD, Nat.testBit_zero]

/-- The top bit of a byte is what puts its value in the upper half. -/
theorem highBitFlag_eq (a : Byte) : highBitFlag a = decide (128 ≤ a.toNat) :=
  BitVec.msb_eq_decide a

theorem toNat_ushiftRight_one (a : Byte) : (a >>> 1).toNat = a.toNat / 2 := by
  rw [BitVec.toNat_ushiftRight, Nat.shiftRight_one]

theorem toNat_shiftLeft_one (a : Byte) : (a <<< 1).toNat = 2 * a.toNat % 256 := by
  rw [BitVec.toNat_shiftLeft, Nat.shiftLeft_eq, pow_one, Nat.mul_comm]

/-! ### The flag and the result -/

/-- The effect shared by every instruction that writes `VF` and then its result: the result is written
last, so that it stays where the destination is `VF` (R107, R108). -/
theorem writesFlagAndResult_setFlagThenResult_advance (s : State) (x : Reg) (flag : Bool)
    (result : Byte) :
    WritesFlagAndResult s (s.setFlagThenResult x flag result).advance x flag result :=
  ⟨fun r => s.v_setFlagThenResult x r flag result, rfl⟩

/-! ### The obligation -/

/-- Settles O32: both shifts latch `Vx` and write flag and result through one operation; `y` reaches
neither, and the bit each flag tests is the remainder of the halving, or the carry of the doubling. -/
theorem shiftsByOne : Obligations.ShiftsByOne := by
  intro s x y
  refine ⟨decodeWord_formatXY_shrVx x y, decodeWord_formatXY_shlVx x y, ?_, ?_⟩
  · rw [← lowBitFlag_eq]
    exact ⟨_, s.v x >>> 1, rfl, toNat_ushiftRight_one _,
      writesFlagAndResult_setFlagThenResult_advance ..⟩
  · rw [← highBitFlag_eq]
    exact ⟨_, s.v x <<< 1, rfl, toNat_shiftLeft_one _,
      writesFlagAndResult_setFlagThenResult_advance ..⟩

end Sys2Proof.Machine
end

section
/-! PROOFS. The 60 Hz engine and the run-state messages (spec/60_exceptions R215, R218, R220, R222, R223). -/

namespace Sys2Proof.Machine

open Sys2Proof.Claims

/-! ### The timers through `tick60` -/

@[simp] theorem State.tick60_DT (s : State) : s.tick60.DT = decTimer s.DT := rfl

@[simp] theorem State.tick60_ST (s : State) : s.tick60.ST = decTimer s.ST := rfl

/-- One tick on, the truncated subtractions compose: what is left is again the old timer minus the
number of ticks. -/
theorem State.toNat_timers_iterate_tick60 (k : Nat) (s : State) :
    ((State.tick60^[k]) s).DT.toNat = s.DT.toNat - k ∧
      ((State.tick60^[k]) s).ST.toNat = s.ST.toNat - k := by
  induction k with
  | zero => exact ⟨rfl, rfl⟩
  | succ k ih =>
    obtain ⟨hDT, hST⟩ := ih
    rw [Function.iterate_succ_apply', State.tick60_DT, State.tick60_ST, toNat_decTimer,
      toNat_decTimer, hDT, hST]
    exact ⟨Nat.sub_sub .., Nat.sub_sub ..⟩

/-! ### The transition of an agent other than the stepper (R212) -/

theorem step_eq_occur {s : State} {e : OutsideEvent} {rest : List Event}
    (hsched : s.schedule = .outside e :: rest) :
    step s = .next (State.occur { s with schedule := rest } e) := by
  rw [step, hsched]

/-! ### The obligations -/

/-- Settles O48: the count of ticks is by induction on it, each tick being one saturating decrement of
both timers; the transition is one such tick on the state with its entry taken, without a condition. -/
theorem timersNeverUnderflow : Obligations.TimersNeverUnderflow := by
  refine ⟨State.toNat_timers_iterate_tick60, fun s rest hsched => ?_⟩
  exact ⟨_, step_eq_occur hsched, toNat_decTimer s.DT, toNat_decTimer s.ST, rfl⟩

/-- Settles O50: either message is one write of `run_state` and its report, and `tick60` reads no
`run_state`, so a paused machine's timers count down as ever. -/
theorem runStateMessages : Obligations.RunStateMessages := fun s =>
  ⟨rfl, rfl, toNat_decTimer s.DT, toNat_decTimer s.ST⟩

end Sys2Proof.Machine
end

section
/-! PROOFS. The refused ROM, and the reports of a `step_tick` (spec/60_exceptions R202, R217, R219). -/

namespace Sys2Proof.Machine

open Sys2Proof.Claims

/-! ### What `LoadROM` does on either side of the limit -/

theorem State.process_loadROM_of_tooLarge (s : State) {bytes : List Byte}
    (hlarge : 0xE00 ≤ bytes.length) : s.process (.loadROM bytes) = s.report .romTooLarge :=
  if_pos ((romRefused_iff _).2 hlarge)

theorem State.process_loadROM_of_fits (s : State) {bytes : List Byte} (hfits : bytes.length < 0xE00) :
    s.process (.loadROM bytes) =
      (s.setMemory (Memory.writeBytes s.memory Config.progBase bytes)).report .success :=
  if_neg fun hrefused => hfits.not_ge ((romRefused_iff _).1 hrefused)

@[simp] theorem State.report_reports (s : State) (r : Report) :
    (s.report r).reports = s.reports ++ [r] := rfl

/-! ### No `step_tick` reports anything -/

@[simp] theorem State.skipIf_reports (s : State) (c : Bool) : (s.skipIf c).reports = s.reports := by
  rw [State.skipIf_eq, State.jump_reports]

/-- No instruction reports: where it takes a condition it is `State.raise`, and elsewhere its effect is
made of the named operations on other fields. -/
theorem exec_reports {i : Instr} {s t : State} (h : exec i s = .next t) : t.reports = s.reports := by
  cases i
  case ret =>
    rcases execRet_cases s with ⟨-, e⟩ | ⟨k, -, -, e⟩ | ⟨-, e⟩ <;> cases e.symm.trans h <;> rfl
  case call nnn =>
    rcases execCall_cases nnn s with ⟨-, e⟩ | ⟨-, e⟩ | ⟨-, e⟩ <;> cases e.symm.trans h <;> rfl
  case skpVx x =>
    rcases execSkpVx_cases x s with ⟨k, -, e⟩ | ⟨-, e⟩ <;> cases e.symm.trans h <;> rfl
  case sknpVx x =>
    rcases execSknpVx_cases x s with ⟨k, -, e⟩ | ⟨-, e⟩ <;> cases e.symm.trans h <;> rfl
  case drwVxVyN x y n =>
    rcases execDrwVxVyN_cases x y n s with ⟨-, -, e⟩ | ⟨-, e⟩ <;> cases e.symm.trans h <;> rfl
  case ldBVx x =>
    rcases execLdBVx_cases x s with ⟨-, e⟩ | ⟨-, e⟩ <;> cases e.symm.trans h <;> rfl
  case ldMemVx x =>
    rcases execLdMemVx_cases x s with ⟨-, e⟩ | ⟨-, e⟩ <;> cases e.symm.trans h <;> rfl
  case ldVxMem x =>
    rcases execLdVxMem_cases x s with ⟨-, e⟩ | ⟨-, V', e, -⟩ <;> cases e.symm.trans h <;> rfl
  case ldVxK x =>
    rcases execLdVxK_cases x s with ⟨k, -, e⟩ | ⟨-, e⟩ <;> cases e.symm.trans h <;> rfl
  case seVxKk | sneVxKk | seVxVy | sneVxVy => cases h; exact s.skipIf_reports _
  all_goals cases h; rfl

@[simp] theorem State.waitCheck_reports (s : State) (x : Reg) :
    (s.waitCheck x).reports = s.reports := by
  rcases s.waitCheck_cases x with ⟨k, -, e⟩ | ⟨-, e⟩
  · rw [e]; rfl
  · rw [e]

theorem tick_reports {s t : State} (h : tick s = .next t) : t.reports = s.reports := by
  rcases tick_cases s with ⟨-, e⟩ | ⟨x, -, -, e⟩ | ⟨-, -, -, e⟩ |
    ⟨w, -, -, -, -, ⟨-, e⟩ | ⟨i, -, e⟩⟩
  · cases e.symm.trans h; rfl
  · cases e.symm.trans h; exact s.waitCheck_reports x
  · cases e.symm.trans h; rfl
  · cases e.symm.trans h; rfl
  · exact exec_reports (e.symm.trans h)

/-! ### The obligation -/

/-- Settles O53: past the limit `LoadROM` is its report alone, so that the retry meets the same state
and is decided by its own length; a `step_tick` has no way to report. -/
theorem tooLargeRomChangesNothing : Obligations.TooLargeRomChangesNothing := by
  refine ⟨fun s bytes retry hlarge hfits => ⟨s.process_loadROM_of_tooLarge hlarge, ?_⟩, ?_⟩
  · rw [s.process_loadROM_of_tooLarge hlarge, State.process_loadROM_of_fits _ hfits,
      State.report_reports, State.setMemory_reports, State.report_reports, List.append_assoc]
    rfl
  · intro s t hnext hstep
    have hticked : t.reports = (Ticked s).reports :=
      tick_reports ((step_eq_tick_ticked hnext).symm.trans hstep)
    exact hticked

end Sys2Proof.Machine
end

section
/-! PROOFS. Decode and encode are inverse, and the unrecognised words (spec/30_encoding R71, R80, R92). -/

namespace Sys2Proof

/-! ### Words by their nibbles -/

theorem fieldKk_eq_append (w : Word) : fieldKk w = nib2 w ++ nib3 w :=
  (BitVec.extractLsb'_append_extractLsb'_eq_extractLsb' (x := w) (start₁ := 0) (start₂ := 4)
    (len₁ := 4) rfl).symm

/-- A format A word's second nibble is 0 exactly for an address below 0x100. -/
theorem extractLsb'_top_eq_zero_iff (a : Addr12) : a.extractLsb' 8 4 = 0 ↔ a.toNat < 0x100 := by
  have hlt := a.isLt
  rw [← BitVec.toNat_inj, BitVec.extractLsb'_toNat, Nat.shiftRight_eq_div_pow]
  change a.toNat / 2 ^ 8 % 2 ^ 4 = 0 ↔ _
  omega

/-- The only nibble that the arms 0 to E of the decoder leave to its last one. -/
theorem nibble_eq_F_of_not_mem (p : Nibble) : p ∉ [0x0#4, 0x1#4, 0x2#4, 0x3#4, 0x4#4, 0x5#4, 0x6#4,
    0x7#4, 0x8#4, 0x9#4, 0xA#4, 0xB#4, 0xC#4, 0xD#4, 0xE#4] → p = 0xF#4 := by
  revert p; decide

theorem decodeWord_eq_decodeF {w : Word} (h0 : nib0 w = 0xF#4) : decodeWord w = decodeF w := by
  rw [decodeWord, h0]
  rfl

/-! ### Decode after encode -/

theorem decodeWord_encode {i : Instr} (hwf : i.wf = true) : decodeWord (encode i) = some i := by
  cases i
  case sys nnn =>
    have h1 : ¬ nib1 (0x0#4 ++ nnn) = 0 := by simpa [Instr.wf] using hwf
    simp only [encode, decodeWord, nib0_formatA, decode0, if_neg h1, fieldNnn_formatA]
  case cls | ret => rfl
  case jp | call | ldINnn | jpV0Nnn =>
    simp only [encode, decodeWord, nib0_formatA, fieldNnn_formatA]
  case seVxKk | sneVxKk | ldVxKk | addVxKk | rndVxKk =>
    simp only [encode, decodeWord, nib0_formatXK, fieldX_formatXK, fieldKk_formatXK]
  case skpVx | sknpVx =>
    simp only [encode, decodeWord, nib0_formatXK, decodeE, fieldX_formatXK, fieldKk_formatXK]
  case ldVxDt | ldVxK | ldDtVx | ldStVx | addIVx | ldFVx | ldBVx | ldMemVx | ldVxMem =>
    rw [encode, decodeWord_eq_decodeF (nib0_formatXK ..)]
    simp only [decodeF, fieldX_formatXK, fieldKk_formatXK]
  case seVxVy | sneVxVy | drwVxVyN =>
    simp [encode, decodeWord]
  all_goals
    simp only [encode, decodeWord, nib0_formatXY, decode8, nib3_formatXY, fieldX_formatXY,
      fieldY_formatXY]

/-- A second nibble 0 leads to `CLS`, `RET` or nothing, never to `SYS` (R76, R92). -/
theorem decode0_ne_sys {w : Word} (h1 : nib1 w = 0) (n : Addr12) : decode0 w ≠ some (.sys n) := by
  rw [decode0, if_pos h1]
  split_ifs <;> simp

/-- Settles O2: the fields cut from the word are those the encoder put there, format by format; the
bytes make the word again. Below 0x100 the second nibble is 0, which leads away from `SYS`. -/
theorem decodeOfEncodeIsTheInstruction : Obligations.DecodeOfEncodeIsTheInstruction := by
  refine ⟨fun i rest hwf => ⟨decodeWord_encode hwf, ?_⟩, fun nnn hlt n' => ?_⟩
  · exact (decode_bytes (encode i) rest).trans (by rw [decodeWord_encode hwf])
  · have h1 : nib1 (0x0#4 ++ nnn) = 0 := by
      rw [nib1_formatA, extractLsb'_top_eq_zero_iff]; exact hlt
    simp only [encode, decodeWord, nib0_formatA]
    exact decode0_ne_sys h1 n'

/-! ### Encode after decode -/

/-- Each decoder inverts the encoder on the words that reach it. -/
theorem encode_of_decode0 {w : Word} {i : Instr} (h0 : nib0 w = 0x0) (h : decode0 w = some i) :
    i.wf = true ∧ encode i = w := by
  have hw := word_of_formatXY w
  rw [fieldX, fieldY, h0] at hw
  unfold decode0 at h
  split_ifs at h with h1 h2 h3 h3' <;> cases h
  · exact ⟨rfl, by rw [h1, h2, h3] at hw; exact hw⟩
  · exact ⟨rfl, by rw [h1, h2, h3'] at hw; exact hw⟩
  · have hA := word_of_formatA w
    have h1' : (fieldNnn w).extractLsb' 8 4 ≠ 0 := by rwa [← nib1_formatA (nib0 w), hA]
    exact ⟨by simpa [Instr.wf] using h1', by rw [h0] at hA; exact hA⟩

theorem encode_of_decode8 {w : Word} {i : Instr} (h0 : nib0 w = 0x8) (h : decode8 w = some i) :
    i.wf = true ∧ encode i = w := by
  have hw := word_of_formatXY w
  rw [h0] at hw
  unfold decode8 at h
  split at h <;> cases h <;> rename_i h3 <;> exact ⟨rfl, by rw [h3] at hw; exact hw⟩

theorem encode_of_decodeE {w : Word} {i : Instr} (h0 : nib0 w = 0xE) (h : decodeE w = some i) :
    i.wf = true ∧ encode i = w := by
  have hw := word_of_formatXK w
  rw [h0] at hw
  unfold decodeE at h
  split at h <;> cases h <;> rename_i hk <;> exact ⟨rfl, by rw [hk] at hw; exact hw⟩

theorem encode_of_decodeF {w : Word} {i : Instr} (h0 : nib0 w = 0xF) (h : decodeF w = some i) :
    i.wf = true ∧ encode i = w := by
  have hw := word_of_formatXK w
  rw [h0] at hw
  unfold decodeF at h
  split at h <;> cases h <;> rename_i hk <;> exact ⟨rfl, by rw [hk] at hw; exact hw⟩

theorem encode_of_decodeWord {w : Word} {i : Instr} (h : decodeWord w = some i) :
    i.wf = true ∧ encode i = w := by
  have hA := word_of_formatA w
  have hXK := word_of_formatXK w
  have hXY := word_of_formatXY w
  unfold decodeWord at h
  split at h
  case h_1 h0 => exact encode_of_decode0 h0 h
  case h_9 h0 => exact encode_of_decode8 h0 h
  case h_15 h0 => exact encode_of_decodeE h0 h
  case h_16 =>
    exact encode_of_decodeF
      (nibble_eq_F_of_not_mem _ (by simp only [List.mem_cons, List.not_mem_nil]; tauto)) h
  case h_6 h0 | h_10 h0 =>
    split_ifs at h with h3
    cases h
    rw [h0, h3] at hXY
    exact ⟨rfl, hXY⟩
  case h_14 h0 => cases h; rw [h0] at hXY; exact ⟨rfl, hXY⟩
  case h_2 h0 | h_3 h0 | h_11 h0 | h_12 h0 => cases h; rw [h0] at hA; exact ⟨rfl, hA⟩
  all_goals rename_i h0; cases h; rw [h0] at hXK; exact ⟨rfl, hXK⟩

/-- Settles O3: whichever arm of the decoder answers, the word is put together again from the nibbles
the arm tested and the fields it read, which cover every bit. -/
theorem decodedWordIsItsEncoding : Obligations.DecodedWordIsItsEncoding := fun _ _ =>
  encode_of_decodeWord

/-! ### The unrecognised words (R80) -/

theorem decode0_eq_none_iff (w : Word) :
    decode0 w = none ↔ nib1 w = 0x0 ∧ fieldKk w ∉ [0xE0#8, 0xEE#8] := by
  have key : ∀ a b : Nibble, (if a = 0xE then if b = 0x0 then some Instr.cls else
      if b = 0xE then some .ret else none else none) = none ↔ a ++ b ∉ [0xE0#8, 0xEE#8] := by decide
  by_cases h1 : nib1 w = 0
  · rw [decode0, if_pos h1, fieldKk_eq_append]
    exact (key _ _).trans (iff_and_self.2 fun _ => h1)
  · rw [decode0, if_neg h1]
    exact iff_of_false (Option.some_ne_none _) fun h => h1 h.1

theorem decode8_eq_none_iff (w : Word) : decode8 w = none ↔
    nib3 w ∈ [0x8#4, 0x9#4, 0xA#4, 0xB#4, 0xC#4, 0xD#4, 0xF#4] := by
  unfold decode8
  generalize nib3 w = n
  have key : n ∉ [0x0#4, 0x1, 0x2, 0x3, 0x4, 0x5, 0x6, 0x7, 0xE] ↔
    n ∈ [0x8#4, 0x9#4, 0xA#4, 0xB#4, 0xC#4, 0xD#4, 0xF#4] := by revert n; decide
  rw [← key]
  split <;> simp_all

theorem decodeE_eq_none_iff (w : Word) : decodeE w = none ↔ fieldKk w ∉ [0x9E#8, 0xA1#8] := by
  unfold decodeE
  split <;> simp_all

theorem decodeF_eq_none_iff (w : Word) : decodeF w = none ↔ fieldKk w ∉
    [0x07#8, 0x0A#8, 0x15#8, 0x18#8, 0x1E#8, 0x29#8, 0x33#8, 0x55#8, 0x65#8] := by
  unfold decodeF
  split <;> simp_all

/-- Settles O4: each arm of the decoder is one row of the table, or recognises every word. -/
theorem unrecognisedWordsAreExactly : Obligations.UnrecognisedWordsAreExactly := by
  intro w
  unfold decodeWord
  split
  case h_1 h0 => simp [h0, decode0_eq_none_iff]
  case h_9 h0 => simp [h0, decode8_eq_none_iff]
  case h_15 h0 => simp [h0, decodeE_eq_none_iff]
  case h_16 =>
    have hF := nibble_eq_F_of_not_mem (nib0 w) (by simp only [List.mem_cons, List.not_mem_nil]; tauto)
    simp [hF, decodeF_eq_none_iff]
  all_goals rename_i h0; simp [h0]

end Sys2Proof
end

section
/-! PROOFS. Everything an instruction can do, said once; the tables of the whole machine follow from it
(spec/10_state R21 to R29, spec/60_exceptions R201). -/

namespace Sys2Proof.Machine

open Sys2Proof.Claims

/-! ### The conditions and the effects -/

/-- The handlers of R201: which instruction takes which condition, when, with which datum. -/
inductive Raises (s : State) : Instr → Cause → Prop where
  | call (nnn : Addr12) (hsp : s.SP = 15) : Raises s (.call nnn) .stackOverflow
  | ret (hsp : s.SP = 0) : Raises s .ret .stackUnderflow
  | draw (x y : Reg) (n : Nibble) (hn : 1 ≤ n.toNat) (hend : 0x1000 < s.indexAddr + n.toNat) :
    Raises s (.drwVxVyN x y n) (.addressOutOfRange (max s.indexAddr 0x1000))
  | bcd (x : Reg) (hend : 0x1000 < s.indexAddr + 3) :
    Raises s (.ldBVx x) (.addressOutOfRange (max s.indexAddr 0x1000))
  | store (x : Reg) (hend : 0x1000 < s.indexAddr + (x.toNat + 1)) :
    Raises s (.ldMemVx x) (.addressOutOfRange (max s.indexAddr 0x1000))
  | load (x : Reg) (hend : 0x1000 < s.indexAddr + (x.toNat + 1)) :
    Raises s (.ldVxMem x) (.addressOutOfRange (max s.indexAddr 0x1000))
  | skp (x : Reg) (hkey : 15 < (s.v x).toNat) : Raises s (.skpVx x) (.keyIndexOutOfRange (s.v x))
  | sknp (x : Reg) (hkey : 15 < (s.v x).toNat) : Raises s (.sknpVx x) (.keyIndexOutOfRange (s.v x))

/-- What an instruction does where it takes no condition, by the pieces of state it writes. -/
inductive Effect (s : State) : Instr → State → Prop where
  /-- Only registers of R21's table and `PC`: loads, the ALU, jumps, skips, `SYS`. -/
  | registers {i : Instr} (V' : Vector Byte 16)
      (hV : ∀ r : Reg, V'[r.toNat] ≠ s.v r → mayWrite i r) :
    Effect s i (({ s with V := V' } : State).jump (pcAfter i s))
  | index {i : Instr} (a : Word)
      (hi : (∃ n, i = .ldINnn n) ∨ (∃ x, i = .addIVx x) ∨ ∃ x, i = .ldFVx x) :
    Effect s i (s.setI a).advance
  | delayTimer (x : Reg) : Effect s (.ldDtVx x) (s.setDT (s.v x)).advance
  | soundTimer (x : Reg) : Effect s (.ldStVx x) (s.setST (s.v x)).advance
  | clearScreen : Effect s .cls (s.setScreen []).advance
  | draw (x y : Reg) (n : Nibble) (rows : List Byte) :
    Effect s (.drwVxVyN x y n) (s.drawSprite false x y rows).advance
  | store {i : Instr} (a : Nat) (bs : List Byte) (hi : (∃ x, i = .ldBVx x) ∨ ∃ x, i = .ldMemVx x)
      (hend : a + bs.length ≤ 0x1000) :
    Effect s i (s.setMemory (Memory.writeBytes s.memory a bs)).advance
  | call (nnn : Addr12) (hsp : s.SP.toNat < 15) :
    Effect s (.call nnn) ((s.push (s.PC + 2)).jump (immAddr nnn))
  | ret (k : Fin 16) (hsp : s.SP.toNat = k.val) (hk : k ≠ 0) :
    Effect s .ret (s.pop.jump s.stack[k])
  | random (x : Reg) (kk b : Byte) : Effect s (.rndVxKk x kk) ((s.setV x b).countDraw).advance
  | takeKey (x : Reg) (k : Key) (hdown : s.keysDown[k] = true) : Effect s (.ldVxK x) (s.takeKey x k)
  | suspend (x : Reg) (hup : ∀ k : Key, s.keysDown[k] = false) :
    Effect s (.ldVxK x) { s with wait := .awaitingKey x }

/-! ### Instructions that write registers only -/

/-- No register at all: the instruction is one jump. -/
theorem Effect.of_jump {s : State} {i : Instr} {target : Word} (hpc : target = pcAfter i s) :
    Effect s i (s.jump target) :=
  hpc ▸ .registers s.V fun _ hne => absurd rfl hne

theorem Effect.of_setV {s : State} {i : Instr} {x : Reg} {b : Byte} (hx : mayWrite i x)
    (hpc : s.PC + 2 = pcAfter i s) : Effect s i (s.setV x b).advance := by
  have h := Effect.registers (s := s) (i := i) (s.setV x b).V fun r hne => ?_
  · rw [← hpc] at h; exact h
  · by_cases hr : r = x
    · rwa [hr]
    · exact absurd (s.v_setV_other b hr) hne

theorem Effect.of_setFlagThenResult {s : State} {i : Instr} {x : Reg} {flag : Bool} {b : Byte}
    (hx : ∀ r, r = x ∨ r = 15 → mayWrite i r) (hpc : s.PC + 2 = pcAfter i s) :
    Effect s i (s.setFlagThenResult x flag b).advance := by
  have h := Effect.registers (s := s) (i := i) (s.setFlagThenResult x flag b).V fun r hne => ?_
  · rw [← hpc] at h; exact h
  · by_contra hnot
    obtain ⟨hrx, hrF⟩ := not_or.1 fun hr => hnot (hx r hr)
    exact hne ((s.v_setFlagThenResult x r flag b).trans (by rw [if_neg hrx, if_neg hrF]))

/-- A skip on a test that the table of R24 names. -/
theorem Effect.of_skipIf {s : State} {i : Instr} {c : Bool} (hpc : pcAfter i s = skipPc s c) :
    Effect s i (s.skipIf c) := by
  rw [State.skipIf_eq]
  exact .of_jump hpc.symm

/-! ### Every instruction -/

/-- Everything an instruction can answer: a condition with its own word, its effect, or the model's own
stop with `SP` out of range (log 7). -/
theorem exec_cases (i : Instr) (s : State) :
    (∃ c, Raises s i c ∧ exec i s = .next (s.raise c (encode i))) ∨
    (∃ t, Effect s i t ∧ exec i s = .next t) ∨
    (15 < s.SP.toNat ∧ (i = .ret ∨ ∃ n, i = .call n) ∧
      exec i s = .fault .stackPointerOutOfRange) := by
  cases i
  case ret =>
    rcases execRet_cases s with ⟨hsp, e⟩ | ⟨k, hsp, hk, e⟩ | ⟨hsp, e⟩
    · exact .inl ⟨_, .ret hsp, e⟩
    · exact .inr (.inl ⟨_, .ret k hsp hk, e⟩)
    · exact .inr (.inr ⟨hsp, .inl rfl, e⟩)
  case call nnn =>
    rcases execCall_cases nnn s with ⟨hsp, e⟩ | ⟨hsp, e⟩ | ⟨hsp, e⟩
    · exact .inl ⟨_, .call nnn hsp, e⟩
    · exact .inr (.inl ⟨_, .call nnn hsp, e⟩)
    · exact .inr (.inr ⟨hsp, .inr ⟨nnn, rfl⟩, e⟩)
  case drwVxVyN x y n =>
    rcases execDrwVxVyN_cases x y n s with ⟨hn, hend, e⟩ | ⟨-, e⟩
    · exact .inl ⟨_, .draw x y n hn hend, e⟩
    · exact .inr (.inl ⟨_, .draw x y n _, e⟩)
  case ldBVx x =>
    rcases execLdBVx_cases x s with ⟨hend, e⟩ | ⟨hend, e⟩
    · exact .inl ⟨_, .bcd x hend, e⟩
    · exact .inr (.inl ⟨_, .store _ _ (.inl ⟨x, rfl⟩) hend, e⟩)
  case ldMemVx x =>
    rcases execLdMemVx_cases x s with ⟨hend, e⟩ | ⟨hend, e⟩
    · exact .inl ⟨_, .store x hend, e⟩
    · exact .inr (.inl ⟨_, .store _ _ (.inr ⟨x, rfl⟩) (by rwa [s.length_regBlock]), e⟩)
  case ldVxMem x =>
    rcases execLdVxMem_cases x s with ⟨hend, e⟩ | ⟨-, V', e, hV⟩
    · exact .inl ⟨_, .load x hend, e⟩
    · refine .inr (.inl ⟨_, .registers V' fun r hne => ?_, e⟩)
      by_contra hr
      exact hne ((hV r.toNat r.isLt).trans (if_neg hr))
  case skpVx x =>
    rcases execSkpVx_cases x s with ⟨k, hk, e⟩ | ⟨hkey, e⟩
    · exact .inr (.inl ⟨_, .of_jump (by simp [pcAfter, skipPc, hk]), e⟩)
    · exact .inl ⟨_, .skp x hkey, e⟩
  case sknpVx x =>
    rcases execSknpVx_cases x s with ⟨k, hk, e⟩ | ⟨hkey, e⟩
    · exact .inr (.inl ⟨_, .of_jump (by simp [pcAfter, skipPc, hk]), e⟩)
    · exact .inl ⟨_, .sknp x hkey, e⟩
  case ldVxK x =>
    rcases execLdVxK_cases x s with ⟨k, hk, e⟩ | ⟨hup, e⟩
    · exact .inr (.inl ⟨_, .takeKey x k hk, e⟩)
    · exact .inr (.inl ⟨_, .suspend x hup, e⟩)
  case cls => exact .inr (.inl ⟨_, .clearScreen, rfl⟩)
  case rndVxKk x kk => exact .inr (.inl ⟨_, .random x kk _, rfl⟩)
  case ldDtVx x => exact .inr (.inl ⟨_, .delayTimer x, rfl⟩)
  case ldStVx x => exact .inr (.inl ⟨_, .soundTimer x, rfl⟩)
  case ldINnn n => exact .inr (.inl ⟨_, .index _ (.inl ⟨n, rfl⟩), rfl⟩)
  case addIVx x => exact .inr (.inl ⟨_, .index _ (.inr (.inl ⟨x, rfl⟩)), rfl⟩)
  case ldFVx x => exact .inr (.inl ⟨_, .index _ (.inr (.inr ⟨x, rfl⟩)), rfl⟩)
  case seVxKk | sneVxKk | seVxVy | sneVxVy =>
    refine .inr (.inl ⟨_, .of_skipIf (congrArg (skipPc s) ?_), rfl⟩)
    simp [bne, Bool.beq_eq_decide_eq]
  case sys | jp | jpV0Nnn => exact .inr (.inl ⟨_, .of_jump rfl, rfl⟩)
  case addVxVy | subVxVy | subnVxVy | shrVx | shlVx =>
    exact .inr (.inl ⟨_, .of_setFlagThenResult (fun _ => id) rfl, rfl⟩)
  all_goals exact .inr (.inl ⟨_, .of_setV rfl rfl, rfl⟩)

/-- The same for an instruction that answers a next state. -/
theorem exec_next_cases {i : Instr} {s t : State} (h : exec i s = .next t) :
    (∃ c, Raises s i c ∧ t = s.raise c (encode i)) ∨ Effect s i t := by
  rcases exec_cases i s with ⟨c, hc, e⟩ | ⟨u, hu, e⟩ | ⟨-, -, e⟩ <;> cases e.symm.trans h
  · exact .inl ⟨c, hc, rfl⟩
  · exact .inr hu

theorem Effect.halt_eq {s t : State} {i : Instr} (h : Effect s i t) : t.halt = s.halt := by
  cases h <;> rfl

/-! ### The obligations -/

/-- Settles O14: an effect leaves the machine unhalted, so a record comes from one of `Raises`. -/
theorem eachConditionHasItsInstructions : Obligations.EachConditionHasItsInstructions := by
  intro i s t r hrun h hrec
  rcases exec_next_cases h with ⟨c, hc, rfl⟩ | heff
  · cases hrec
    cases hc
    case call nnn hsp => exact ⟨hsp, nnn, rfl⟩
    case ret hsp => exact ⟨hsp, rfl⟩
    case draw x y n hn hend => exact ⟨rfl, .inl ⟨x, y, n, rfl, hn, hend⟩⟩
    case bcd x hend => exact ⟨rfl, .inr (.inl ⟨x, rfl, hend⟩)⟩
    case store x hend => exact ⟨rfl, .inr (.inr (.inl ⟨x, rfl, hend⟩))⟩
    case load x hend => exact ⟨rfl, .inr (.inr (.inr ⟨x, rfl, hend⟩))⟩
    case skp x hkey => exact ⟨hkey, x, rfl, .inl rfl⟩
    case sknp x hkey => exact ⟨hkey, x, rfl, .inr rfl⟩
  · cases (heff.halt_eq.trans hrun).symm.trans hrec

/-- Settles O17: effect by effect; a condition writes no register. -/
theorem registersWrittenByEachInstruction : Obligations.RegistersWrittenByEachInstruction := by
  intro i s t r h hne
  rcases exec_next_cases h with ⟨c, -, rfl⟩ | heff
  · exact absurd rfl hne
  · cases heff
    case registers V' hV => exact hV r hne
    case draw => exact of_not_not fun hr => hne (State.v_setV_other _ _ hr)
    case random | takeKey => exact of_not_not fun hr => hne (State.v_setV_other _ _ hr)
    all_goals exact absurd rfl hne

/-- Some key of the 16 is down. -/
theorem keysDown_any_iff (s : State) : s.keysDown.any id = true ↔ ∃ k : Key, s.keysDown[k] = true := by
  rw [Vector.any_eq_true]
  exact ⟨fun ⟨k, hk, h⟩ => ⟨⟨k, hk⟩, h⟩, fun ⟨k, h⟩ => ⟨k, k.isLt, h⟩⟩

theorem Effect.pc_eq {s t : State} {i : Instr} (h : Effect s i t) : t.PC = pcAfter i s := by
  cases h
  case index a hi => rcases hi with ⟨n, rfl⟩ | ⟨x, rfl⟩ | ⟨x, rfl⟩ <;> rfl
  case store a bs hend hi => rcases hi with ⟨x, rfl⟩ | ⟨x, rfl⟩ <;> rfl
  case ret k hsp hk => simp [pcAfter, hsp]
  case takeKey x k hdown => exact (if_pos ((keysDown_any_iff s).2 ⟨k, hdown⟩)).symm
  case suspend x hup =>
    refine (if_neg fun h => ?_).symm
    obtain ⟨k, hk⟩ := (keysDown_any_iff s).1 h
    exact absurd hk (by simp [hup k])
  all_goals rfl

/-- Settles O18: an effect does not halt and moves `PC` as the table says; a condition halts and leaves
`PC`. -/
theorem pcAfterEachInstruction : Obligations.PcAfterEachInstruction := by
  intro i s t hrun h
  rcases exec_next_cases h with ⟨c, -, rfl⟩ | heff
  · exact (if_neg (Option.some_ne_none _)).symm
  · rw [if_pos (heff.halt_eq.trans hrun), heff.pc_eq]

/-- A call stores above entry 0. -/
theorem State.push_stack_zero {s : State} (ra : Word) (hsp : s.SP.toNat < 15) :
    (s.push ra).stack[0] = s.stack[0] :=
  ((s.push_spec ra hsp).2 0).trans (if_neg (Nat.succ_ne_zero _).symm)

/-! ### Which effect writes which piece of state -/

theorem Effect.of_I_ne {s t : State} {i : Instr} (h : Effect s i t) (hne : t.I ≠ s.I) :
    (∃ n, i = .ldINnn n) ∨ (∃ x, i = .addIVx x) ∨ ∃ x, i = .ldFVx x := by
  cases h
  case index a hi => exact hi
  all_goals exact absurd rfl hne

/-- What becomes of `SP`: kept, one more by `CALL`, or one less by `RET`, within its range. -/
theorem Effect.sp_cases {s t : State} {i : Instr} (h : Effect s i t) :
    t.SP = s.SP ∨
    ((∃ n, i = .call n) ∧ s.SP.toNat < 15 ∧ t.SP.toNat = s.SP.toNat + 1) ∨
    (i = .ret ∧ s.SP.toNat ≤ 15 ∧ t.SP.toNat + 1 = s.SP.toNat) := by
  cases h
  case call nnn hsp => exact .inr (.inl ⟨⟨nnn, rfl⟩, hsp, (s.push_spec (s.PC + 2) hsp).1⟩)
  case ret k hsp hk =>
    have hne : s.SP ≠ 0 := fun h0 => hk (Fin.ext (by rw [← hsp, h0]; rfl))
    exact .inr (.inr ⟨rfl, by omega, s.pop_spec hne⟩)
  all_goals exact .inl rfl

theorem Effect.of_stack_ne {s t : State} {i : Instr} (h : Effect s i t) (hne : t.stack ≠ s.stack) :
    ∃ n, i = .call n := by
  cases h
  case call nnn hsp => exact ⟨nnn, rfl⟩
  all_goals exact absurd rfl hne

theorem Effect.stack_zero_eq {s t : State} {i : Instr} (h : Effect s i t) :
    t.stack[0] = s.stack[0] := by
  cases h
  case call nnn hsp => exact State.push_stack_zero (s.PC + 2) hsp
  all_goals rfl

theorem Effect.of_DT_ne {s t : State} {i : Instr} (h : Effect s i t) (hne : t.DT ≠ s.DT) :
    ∃ x, i = .ldDtVx x := by
  cases h
  case delayTimer x => exact ⟨x, rfl⟩
  all_goals exact absurd rfl hne

theorem Effect.of_ST_ne {s t : State} {i : Instr} (h : Effect s i t) (hne : t.ST ≠ s.ST) :
    ∃ x, i = .ldStVx x := by
  cases h
  case soundTimer x => exact ⟨x, rfl⟩
  all_goals exact absurd rfl hne

theorem Effect.of_memory_ne {s t : State} {i : Instr} (h : Effect s i t)
    (hne : t.memory ≠ s.memory) : (∃ x, i = .ldBVx x) ∨ ∃ x, i = .ldMemVx x := by
  cases h
  case store a bs hend hi => exact hi
  all_goals exact absurd rfl hne

theorem Effect.of_screen_ne {s t : State} {i : Instr} (h : Effect s i t)
    (hne : t.screen ≠ s.screen) : i = .cls ∨ ∃ x y n, i = .drwVxVyN x y n := by
  cases h
  case clearScreen => exact .inl rfl
  case draw x y n rows => exact .inr ⟨x, y, n, rfl⟩
  all_goals exact absurd rfl hne

theorem Effect.of_wait_ne {s t : State} {i : Instr} (h : Effect s i t) (hne : t.wait ≠ s.wait) :
    ∃ x, i = .ldVxK x := by
  cases h
  case suspend x hup => exact ⟨x, rfl⟩
  all_goals exact absurd rfl hne

theorem Effect.of_draws_ne {s t : State} {i : Instr} (h : Effect s i t) (hne : t.draws ≠ s.draws) :
    (∃ x k, i = .rndVxKk x k) ∨ ∃ x, i = .ldVxK x := by
  cases h
  case random x kk b => exact .inl ⟨x, kk, rfl⟩
  case takeKey x k hdown => exact .inr ⟨x, rfl⟩
  all_goals exact absurd rfl hne

/-- What no instruction writes. -/
theorem Effect.kept {s t : State} {i : Instr} (h : Effect s i t) :
    t.hires = s.hires ∧ t.keysDown = s.keysDown ∧ t.lastKey = s.lastKey ∧
      t.runState = s.runState ∧ t.msgQueue = s.msgQueue ∧ t.schedule = s.schedule ∧
      t.reports = s.reports := by
  cases h <;> exact ⟨rfl, rfl, rfl, rfl, rfl, rfl, rfl⟩

/-- Settles O19: piece by piece; a condition writes none of them. -/
theorem stateWrittenByEachInstruction : Obligations.StateWrittenByEachInstruction := by
  intro i s t h
  rcases exec_next_cases h with ⟨c, -, rfl⟩ | heff
  · exact ⟨absurd rfl, absurd rfl, absurd rfl, rfl, absurd rfl, absurd rfl, absurd rfl, absurd rfl,
      absurd rfl, rfl, rfl, rfl, rfl, rfl, rfl, rfl, absurd rfl⟩
  · obtain ⟨hhires, hkeys, hlast, hrun, hmsg, hsched, hreports⟩ := heff.kept
    refine ⟨heff.of_I_ne, fun hne => ?_, heff.of_stack_ne, heff.stack_zero_eq, heff.of_DT_ne,
      heff.of_ST_ne, heff.of_memory_ne, heff.of_screen_ne, heff.of_wait_ne, hhires, hkeys, hlast,
      hrun, hmsg, hsched, hreports, heff.of_draws_ne⟩
    rcases heff.sp_cases with hsame | ⟨hcall, -⟩ | ⟨hret, -⟩
    · exact absurd hsame hne
    · exact .inr hcall
    · exact .inl hret

/-! ### The range of `SP`, and totality -/

/-- Settles O20: `CALL` counts up below 15 and `RET` down above 0; at the limits each is the condition
alone. -/
theorem stackPointerStaysInRange : Obligations.StackPointerStaysInRange := by
  refine ⟨rfl, fun i s t hsp h => ?_, fun s nnn hsp => ?_, fun s hsp => ?_⟩
  · rcases exec_next_cases h with ⟨c, -, rfl⟩ | heff
    · exact ⟨hsp, absurd rfl⟩
    · rcases heff.sp_cases with hsame | ⟨hcall, hlt, hup⟩ | ⟨hret, hle, hdown⟩
      · exact ⟨by rwa [State.SpOk, hsame], fun hne => absurd hsame hne⟩
      · exact ⟨by rw [State.SpOk, hup]; omega, fun _ => .inl ⟨hcall, hup⟩⟩
      · exact ⟨by rw [State.SpOk]; omega, fun _ => .inr ⟨hret, hdown⟩⟩
  · exact ⟨_, if_pos hsp, rfl⟩
  · exact ⟨_, if_pos hsp, rfl⟩

theorem exec_answers_next {s : State} (hsp : s.SpOk) (i : Instr) : ∃ t, exec i s = .next t := by
  rcases exec_cases i s with ⟨c, -, e⟩ | ⟨t, -, e⟩ | ⟨habove, -⟩
  · exact ⟨_, e⟩
  · exact ⟨t, e⟩
  · exact absurd hsp habove.not_ge

theorem tick_answers_next {s : State} (hsp : s.SpOk) : ∃ t, tick s = .next t := by
  rcases tick_cases s with ⟨-, e⟩ | ⟨x, -, -, e⟩ | ⟨-, -, -, e⟩ |
    ⟨w, -, -, -, -, ⟨-, e⟩ | ⟨i, -, e⟩⟩
  case inr.inr.inr.inr => exact e ▸ exec_answers_next hsp i
  all_goals exact ⟨_, e⟩

/-- Settles O15: the model's own stop is the one answer of `exec` that is no next state, and it is met
with `SP` above 15 only. -/
theorem everyStepAnswersANextState : Obligations.EveryStepAnswersANextState := by
  refine ⟨fun s hsp => ⟨exec_answers_next hsp, ?_⟩, fun i s f h => ?_⟩
  · rcases step_cases s with ⟨-, e⟩ | ⟨rest, -, e⟩ | ⟨o, rest, -, e⟩
    · exact e ▸ tick_answers_next hsp
    · exact e ▸ tick_answers_next (s := { s with schedule := rest }) hsp
    · exact ⟨_, e⟩
  · rcases exec_cases i s with ⟨c, -, e⟩ | ⟨t, -, e⟩ | ⟨habove, hi, e⟩ <;> cases e.symm.trans h
    exact ⟨habove.not_ge, hi⟩

end Sys2Proof.Machine
end

section
/-! PROOFS. The invariant of the machine, kept by every transition (spec/10_state R25 to R28, R36, R38;
spec/60_exceptions R211). -/

namespace Sys2Proof.Machine

open Sys2Proof.Claims

/-! ### What one transition is made of -/

/-- A predicate that each part of a transition keeps: taking the schedule's entry, a condition, an
effect, the end of a key wait, and the other agents' events, a drain being its messages one by one. -/
structure KeptByParts (P : State → Prop) : Prop where
  schedule : ∀ {s : State} (rest : List Event), P s → P { s with schedule := rest }
  raise : ∀ {s : State} (c : Cause) (w : Word), s.wait = .ready → P s → P (s.raise c w)
  effect : ∀ {s t : State} {i : Instr}, s.halt = none → s.wait = .ready → s.PC.toNat ≤ 0xFFE →
    Effect s i t → P s → P t
  wake : ∀ {s : State} {x : Reg} (k : Key), s.wait = .awaitingKey x → P s →
    P ((s.takeKey x k).setWait .ready)
  tick60 : ∀ {s : State}, P s → P s.tick60
  keyDown : ∀ {s : State} (k : Key), P s → P (s.setKeyDown k)
  keyUp : ∀ {s : State} (k : Key), P s → P (s.setKeyUp k)
  queue : ∀ {s : State} (q : List Message), P s → P { s with msgQueue := q }
  process : ∀ {s : State} (m : Message), P s → P (s.process m)

variable {P : State → Prop} {s t : State}

theorem KeptByParts.foldl_process (hP : KeptByParts P) (ms : List Message) :
    ∀ {s : State}, P s → P (ms.foldl State.process s) := by
  induction ms with
  | nil => exact id
  | cons m ms ih => exact fun hs => ih (hP.process m hs)

theorem KeptByParts.occur (hP : KeptByParts P) (e : OutsideEvent) (hs : P s) : P (s.occur e) := by
  cases e with
  | tick60 => exact hP.tick60 hs
  | keyDown k => exact hP.keyDown k hs
  | keyUp k => exact hP.keyUp k hs
  | send m => exact hP.queue _ hs
  | drain => exact hP.foldl_process _ (hP.queue [] hs)

theorem KeptByParts.waitCheck (hP : KeptByParts P) {x : Reg} (hwait : s.wait = .awaitingKey x)
    (hs : P s) : P (s.waitCheck x) := by
  rcases s.waitCheck_cases x with ⟨k, -, e⟩ | ⟨-, e⟩
  · rw [e]; exact hP.wake k hwait hs
  · rwa [e]

theorem KeptByParts.tick (hP : KeptByParts P) (hs : P s) (h : tick s = .next t) : P t := by
  rcases tick_cases s with ⟨-, e⟩ | ⟨x, hwait, -, e⟩ | ⟨-, hready, -, e⟩ |
    ⟨w, hrun, hready, hpc, -, ⟨-, e⟩ | ⟨i, -, e⟩⟩
  · cases e.symm.trans h; exact hs
  · cases e.symm.trans h; exact hP.waitCheck hwait hs
  · cases e.symm.trans h; exact hP.raise _ _ hready hs
  · cases e.symm.trans h; exact hP.raise _ _ hready hs
  · rcases exec_next_cases (e.symm.trans h) with ⟨c, -, rfl⟩ | heff
    · exact hP.raise _ _ hready hs
    · exact hP.effect hrun hready hpc heff hs

/-- What every part keeps, every transition keeps (R212). -/
theorem KeptByParts.step (hP : KeptByParts P) (hs : P s) (h : step s = .next t) : P t := by
  rcases step_cases s with ⟨-, e⟩ | ⟨rest, -, e⟩ | ⟨o, rest, -, e⟩
  · exact hP.tick hs (e.symm.trans h)
  · exact hP.tick (hP.schedule rest hs) (e.symm.trans h)
  · cases e.symm.trans h; exact hP.occur o (hP.schedule rest hs)

/-! ### The pieces of the invariant under an effect -/

theorem toNat_add_two_of_fetched {pc : Word} (hfetched : pc.toNat ≤ 0xFFE) :
    (pc + 2).toNat = pc.toNat + 2 :=
  BitVec.toNat_add_of_lt (show pc.toNat + 2 < 2 ^ 16 by omega)

theorem skipPc_le (c : Bool) (hpc : s.PC.toNat ≤ 0xFFE) : (skipPc s c).toNat ≤ 0x10FE := by
  have h2 := toNat_add_two_of_fetched hpc
  have h4 := toNat_add_four_of_fetched hpc
  cases c
  · exact h2.trans_le (by omega)
  · exact h4.trans_le (by omega)

/-- The sum of `JP V0,nnn` does not wrap (R124). -/
theorem toNat_immAddr_add_vWord (s : State) (nnn : Addr12) (x : Reg) :
    (immAddr nnn + s.vWord x).toNat = nnn.toNat + (s.v x).toNat := by
  have hv : (s.vWord x).toNat = (s.v x).toNat := BitVec.toNat_setWidth_of_le (by decide)
  have hn := nnn.isLt
  have hb := (s.v x).isLt
  rw [BitVec.toNat_add_of_lt (by rw [toNat_immAddr, hv]; omega), toNat_immAddr, hv]

/-- From an address that was fetched, no instruction leads past 0x10FE (R25). -/
theorem pcAfter_le (i : Instr) (hsp : s.SpOk) (hstack : s.StackOk) (hpc : s.PC.toNat ≤ 0xFFE) :
    (pcAfter i s).toNat ≤ 0x10FE := by
  have h2 : (s.PC + 2).toNat ≤ 0x10FE := skipPc_le false hpc
  cases i
  case jp nnn | call nnn => exact (toNat_immAddr nnn).trans_le (by have := nnn.isLt; omega)
  case jpV0Nnn nnn =>
    refine (toNat_immAddr_add_vWord s nnn 0).trans_le ?_
    have := nnn.isLt
    have := (s.v 0).isLt
    omega
  case ret =>
    have hlt : s.SP.toNat < 16 := Nat.lt_succ_of_le hsp
    have hentry := hstack ⟨s.SP.toNat, hlt⟩
    simp only [pcAfter, Vector.getElem?_eq_getElem hlt, Option.getD_some]
    exact hentry.trans (by decide)
  case ldVxK x =>
    simp only [pcAfter]
    split_ifs
    · exact h2
    · omega
  case seVxKk | sneVxKk | seVxVy | sneVxVy | skpVx | sknpVx => exact skipPc_le _ hpc
  all_goals exact h2

theorem Effect.stackOk {i : Instr} (h : Effect s i t) (hpc : s.PC.toNat ≤ 0xFFE)
    (hs : s.StackOk) : t.StackOk := by
  cases h
  case call nnn hsp =>
    intro k
    have hra := toNat_add_two_of_fetched hpc
    have hk : ((s.push (s.PC + 2)).jump (immAddr nnn)).stack[k] = _ :=
      (s.push_spec (s.PC + 2) hsp).2 k
    rw [hk]
    split_ifs
    · omega
    · exact hs k
  all_goals exact hs

theorem Effect.pcOk {i : Instr} (h : Effect s i t) (hready : s.wait = .ready)
    (hpc : s.PC.toNat ≤ 0xFFE) (hsp : s.SpOk) (hstack : s.StackOk) : t.PcOk := by
  refine ⟨h.pc_eq ▸ pcAfter_le i hsp hstack hpc, fun hwaits => ?_⟩
  cases h
  case suspend => exact hpc
  all_goals exact absurd hready hwaits

theorem Effect.memoryOk {i : Instr} (h : Effect s i t) (hs : s.MemoryOk) : t.MemoryOk := by
  cases h
  case store a bs hend hi => exact Memory.wf_writeBytes hend hs
  all_goals exact hs

theorem Effect.screenOk {i : Instr} (h : Effect s i t) (hs : s.ScreenOk) : t.ScreenOk := by
  cases h
  case clearScreen => rfl
  case draw x y n rows => exact s.drawSprite_wfFrom x y rows hs
  all_goals exact hs

theorem Effect.spOk {i : Instr} (h : Effect s i t) (hs : s.SpOk) : t.SpOk := by
  simp only [State.SpOk] at hs ⊢
  rcases h.sp_cases with hsame | ⟨-, hlt, hup⟩ | ⟨-, hle, hdown⟩
  · rwa [hsame]
  · omega
  · omega

theorem State.Inv.of_effect {i : Instr} (hs : s.Inv) (hrun : s.halt = none)
    (hready : s.wait = .ready) (hpc : s.PC.toNat ≤ 0xFFE) (h : Effect s i t) : t.Inv where
  sp := h.spOk hs.sp
  stack := h.stackOk hpc hs.stack
  pc := h.pcOk hready hpc hs.sp hs.stack
  memory := h.memoryOk hs.memory
  screen := h.screenOk hs.screen
  wait _ := h.halt_eq.trans hrun
  keys := by
    obtain ⟨-, hkeys, hlast, -⟩ := h.kept
    rw [State.KeysOk, hkeys, hlast]
    exact hs.keys
  stackZero := h.stack_zero_eq.trans hs.stackZero

/-! ### The other parts -/

/-- Settles O57: the values of reset are all zeros, `PC` is 0x200 and nothing is listed in memory or on
the screen. -/
theorem resetHasTheInvariant : Obligations.ResetHasTheInvariant where
  sp := by decide
  stack := by decide
  pc := by decide
  memory := Memory.wf_reset
  screen := rfl
  wait _ := rfl
  keys := nofun
  stackZero := by decide

/-- A `Reset` writes the values of `State.reset`, but for the fields it leaves alone (R216). -/
theorem State.resetMachine_eq (s : State) : s.resetMachine = { State.reset with
    runState := s.runState, msgQueue := s.msgQueue, schedule := s.schedule, draws := s.draws,
    reports := s.reports } := by
  rw [State.resetMachine, State.resetMachineUnder, State.resetUnder_font]

theorem State.process_reset_eq (s : State) : s.process .reset = { State.reset with
    runState := s.runState, msgQueue := s.msgQueue, schedule := s.schedule, draws := s.draws,
    reports := s.reports ++ [.success] } := by
  rw [State.process, State.resetMachine_eq, State.report]

theorem State.Inv.process (hs : s.Inv) (m : Message) : (s.process m).Inv := by
  cases m with
  | reset => rw [s.process_reset_eq]; exact { resetHasTheInvariant with }
  | setRunning => exact { hs with }
  | setPaused => exact { hs with }
  | loadROM bytes =>
    rcases Nat.lt_or_ge bytes.length 0xE00 with hfits | hlarge
    · rw [s.process_loadROM_of_fits hfits]
      exact { hs with memory := Memory.wf_writeBytes (by simp only [Config.progBase]; omega) hs.memory }
    · rw [s.process_loadROM_of_tooLarge hlarge]
      exact { hs with }

theorem State.Inv.wake {x : Reg} (hs : s.Inv) (k : Key) (hwait : s.wait = .awaitingKey x) :
    ((s.takeKey x k).setWait .ready).Inv :=
  have hpc : s.PC.toNat ≤ 0xFFE := hs.pc.2 (by rw [hwait]; exact nofun)
  { hs with
    pc := ⟨(toNat_add_two_of_fetched hpc).trans_le (by omega), absurd rfl⟩
    wait := absurd rfl }

theorem State.Inv.setKeyDown (hs : s.Inv) (k : Key) : (s.setKeyDown k).Inv :=
  { hs with keys := fun j hj => by cases hj; exact Vector.getElem_set_self _ }

theorem State.Inv.setKeyUp (hs : s.Inv) (k : Key) : (s.setKeyUp k).Inv :=
  { hs with
    keys := fun j hj => by
      simp only [State.setKeyUp] at hj ⊢
      split_ifs at hj with hlast
      have hne : k ≠ j := fun e => hlast (e ▸ hj)
      have hval : k.val ≠ j.val := fun e => hne (Fin.ext e)
      simpa [Vector.getElem_set, hval] using hs.keys j hj }

theorem keptByParts_inv : KeptByParts State.Inv where
  schedule _ hs := { hs with }
  raise _ _ hready hs := { hs with wait := absurd hready }
  effect hrun hready hpc h hs := hs.of_effect hrun hready hpc h
  wake k hwait hs := hs.wake k hwait
  tick60 hs := { hs with }
  keyDown k hs := hs.setKeyDown k
  keyUp k hs := hs.setKeyUp k
  queue _ hs := { hs with }
  process m hs := hs.process m

/-- Settles O56: each part of a transition keeps every clause; the bound on `PC` after a fetch needs the
clauses on `SP` and the stack, and the wake-up needs the one on a waiting `PC`. -/
theorem stepKeepsTheInvariant : Obligations.StepKeepsTheInvariant := fun _ _ =>
  keptByParts_inv.step

/-! ### The low-res screen (R36) -/

/-- Low-res, with no cell lit beyond the mode. -/
def LowResOk (s : State) : Prop := s.ScreenOk ∧ s.hires = false

theorem State.process_lowResOk (m : Message) (hs : LowResOk s) : LowResOk (s.process m) := by
  cases m with
  | reset => rw [s.process_reset_eq]; exact ⟨rfl, rfl⟩
  | setRunning | setPaused => exact hs
  | loadROM bytes =>
    rcases Nat.lt_or_ge bytes.length 0xE00 with hfits | hlarge
    · rw [s.process_loadROM_of_fits hfits]; exact hs
    · rw [s.process_loadROM_of_tooLarge hlarge]; exact hs

/-- No transition changes the mode but `Reset`, which makes it low-res and clears the grid. -/
theorem keptByParts_lowResOk : KeptByParts LowResOk where
  schedule _ hs := hs
  raise _ _ _ hs := hs
  effect _ _ _ h hs := by
    obtain ⟨hhires, -⟩ := h.kept
    exact ⟨h.screenOk hs.1, hhires.trans hs.2⟩
  wake _ _ hs := hs
  tick60 hs := hs
  keyDown _ hs := hs
  keyUp _ hs := hs
  queue _ hs := hs
  process := State.process_lowResOk

theorem Screen.lit_eq_false_of_le {hi c : Nat} (hc : hi ≤ c) :
    ∀ {scr : Screen} {lo : Nat}, Screen.wfFrom hi lo scr = true → Screen.lit scr c = false
  | [], _, _ => rfl
  | d :: rest, lo, hs => by
    simp only [Screen.wfFrom, Bool.and_eq_true, decide_eq_true_eq] at hs
    obtain ⟨⟨-, hd⟩, hrest⟩ := hs
    have ih := Screen.lit_eq_false_of_le hc hrest
    simp only [Screen.lit, List.contains_cons, Bool.or_eq_false_iff, beq_eq_false_iff_ne] at ih ⊢
    exact ⟨by omega, ih⟩

/-- Settles O58: the mode and the bound it puts on the lit cells are kept together, and 64 times 32 is
2048; the pixel addressing is by definition. -/
theorem lowResCellsStayInTheMode : Obligations.LowResCellsStayInTheMode := by
  refine ⟨fun s t c hscreen hlow h hc => ?_, fun s cx cy => rfl⟩
  obtain ⟨hok, hmode⟩ := keptByParts_lowResOk.step ⟨hscreen, hlow⟩ h
  rw [State.ScreenOk, hmode] at hok
  exact Screen.lit_eq_false_of_le hc hok

end Sys2Proof.Machine
end

section
/-! PROOFS. The dispatch tree and the mask/match rows against the decoder (spec/30_encoding R73 to R77). -/

namespace Sys2Proof

/-! ### The tree walked by four nibbles -/

/-- The lookup of R75 by the nibbles alone, which are all of the word that it reads. -/
def DispatchTree.walk (t : DispatchTree) (a b c d : Nibble) : Option (Word → Instr) :=
  (Level.descend t a).bind fun l1 => (Level.descend l1 b).bind fun l2 =>
    (Level.descend l2 c).bind fun l3 => Level.descend l3 d

theorem treeDecode_eq_walk (w : Word) : treeDecode w =
    (dispatchTree.walk (nib0 w) (nib1 w) (nib2 w) (nib3 w)).map fun build => build w := by
  rw [treeDecode, DispatchTree.lookup, DispatchTree.walk]
  cases Level.descend dispatchTree (nib0 w) with
  | none => rfl
  | some l1 =>
    cases h1 : Level.descend l1 (nib1 w) with
    | none => simp [h1]
    | some l2 => cases h2 : Level.descend l2 (nib2 w) <;> simp [h1, h2]

/-! ### Where the walk fails -/

theorem walk_zero_zero_isNone (c d : Nibble) :
    c ++ d ∉ [0xE0#8, 0xEE#8] → (dispatchTree.walk 0x0 0x0 c d).isNone = true := by
  revert c d; decide

theorem walk_five_isNone (d : Nibble) :
    d ≠ 0x0 → (dispatchTree.walk 0x5 0x0 0x0 d).isNone = true := by
  revert d; decide

theorem walk_eight_isNone (d : Nibble) : d ∈ [0x8#4, 0x9#4, 0xA#4, 0xB#4, 0xC#4, 0xD#4, 0xF#4] →
    (dispatchTree.walk 0x8 0x0 0x0 d).isNone = true := by
  revert d; decide

theorem walk_nine_isNone (d : Nibble) :
    d ≠ 0x0 → (dispatchTree.walk 0x9 0x0 0x0 d).isNone = true := by
  revert d; decide

theorem walk_E_isNone (c d : Nibble) :
    c ++ d ∉ [0x9E#8, 0xA1#8] → (dispatchTree.walk 0xE 0x0 c d).isNone = true := by
  revert c d; decide

theorem walk_F_isNone (c d : Nibble) :
    c ++ d ∉ [0x07#8, 0x0A#8, 0x15#8, 0x18#8, 0x1E#8, 0x29#8, 0x33#8, 0x55#8, 0x65#8] →
    (dispatchTree.walk 0xF 0x0 c d).isNone = true := by
  revert c d; decide

/-- The walk fails on every unrecognised word; a wildcard level reads nothing of its nibble. -/
theorem treeDecode_eq_none {w : Word} (h : decodeWord w = none) : treeDecode w = none := by
  rw [treeDecode_eq_walk, Option.map_eq_none_iff, ← Option.isNone_iff_eq_none]
  rcases (unrecognisedWordsAreExactly w).1 h with ⟨h0, h1, hk⟩ | ⟨h0, h3⟩ | ⟨h0, h3⟩ | ⟨h0, h3⟩ |
    ⟨h0, hk⟩ | ⟨h0, hk⟩ <;> rw [h0]
  · rw [h1]; exact walk_zero_zero_isNone _ _ (fieldKk_eq_append w ▸ hk)
  · exact walk_five_isNone _ h3
  · exact walk_eight_isNone _ h3
  · exact walk_nine_isNone _ h3
  · exact walk_E_isNone _ _ (fieldKk_eq_append w ▸ hk)
  · exact walk_F_isNone _ _ (fieldKk_eq_append w ▸ hk)

/-! ### Where the walk succeeds -/

/-- A second nibble other than 0 has no exact entry, so that the wildcard's is taken. -/
theorem walk_zero_of_ne (b c d : Nibble) (hb : b ≠ 0x0) :
    dispatchTree.walk 0x0 b c d = some fun w => .sys (fieldNnn w) := by
  obtain ⟨⟨b, hlt⟩⟩ := b
  interval_cases b
  · exact absurd rfl hb
  all_goals rfl

theorem treeDecode_of_decode0 {w : Word} {i : Instr} (h0 : nib0 w = 0x0) (h : decode0 w = some i) :
    treeDecode w = some i := by
  rw [treeDecode_eq_walk, h0]
  unfold decode0 at h
  split_ifs at h with h1 h2 h3 h3' <;> cases h
  · rw [h1, h2, h3]; rfl
  · rw [h1, h2, h3']; rfl
  · rw [walk_zero_of_ne _ _ _ h1]; rfl

theorem treeDecode_of_decode8 {w : Word} {i : Instr} (h0 : nib0 w = 0x8) (h : decode8 w = some i) :
    treeDecode w = some i := by
  rw [treeDecode_eq_walk, h0]
  unfold decode8 at h
  split at h <;> cases h <;> rename_i h3 <;> rw [h3] <;> rfl

theorem nib2_eq_of_fieldKk {w : Word} {k : Byte} (hk : fieldKk w = k) :
    nib2 w = k.extractLsb' 4 4 := by
  rw [← hk, fieldKk_eq_append]; exact BitVec.extractLsb'_append_eq_left.symm

theorem nib3_eq_of_fieldKk {w : Word} {k : Byte} (hk : fieldKk w = k) :
    nib3 w = k.extractLsb' 0 4 := by
  rw [← hk, fieldKk_eq_append]; exact BitVec.extractLsb'_append_eq_right.symm

theorem treeDecode_of_decodeE {w : Word} {i : Instr} (h0 : nib0 w = 0xE) (h : decodeE w = some i) :
    treeDecode w = some i := by
  rw [treeDecode_eq_walk, h0]
  unfold decodeE at h
  split at h <;> cases h <;> rename_i hk <;>
    rw [nib2_eq_of_fieldKk hk, nib3_eq_of_fieldKk hk] <;> rfl

theorem treeDecode_of_decodeF {w : Word} {i : Instr} (h0 : nib0 w = 0xF) (h : decodeF w = some i) :
    treeDecode w = some i := by
  rw [treeDecode_eq_walk, h0]
  unfold decodeF at h
  split at h <;> cases h <;> rename_i hk <;>
    rw [nib2_eq_of_fieldKk hk, nib3_eq_of_fieldKk hk] <;> rfl

theorem treeDecode_of_decodeWord {w : Word} {i : Instr} (h : decodeWord w = some i) :
    treeDecode w = some i := by
  unfold decodeWord at h
  split at h
  case h_1 h0 => exact treeDecode_of_decode0 h0 h
  case h_9 h0 => exact treeDecode_of_decode8 h0 h
  case h_15 h0 => exact treeDecode_of_decodeE h0 h
  case h_16 =>
    exact treeDecode_of_decodeF
      (nibble_eq_F_of_not_mem _ (by simp only [List.mem_cons, List.not_mem_nil]; tauto)) h
  case h_6 h0 | h_10 h0 =>
    split_ifs at h with h3
    cases h
    rw [treeDecode_eq_walk, h0, h3]
    rfl
  all_goals rename_i h0; cases h; rw [treeDecode_eq_walk, h0]; rfl

/-- Settles O5: the walk succeeds with the decoder's instruction on the words that decode, and fails on
the words of R80's table. -/
theorem dispatchTreeAgreesWithDecoder : Obligations.DispatchTreeAgreesWithDecoder := by
  intro w
  cases h : decodeWord w with
  | none => exact treeDecode_eq_none h
  | some i => exact treeDecode_of_decodeWord h

/-! ### The mask/match rows (R77) -/

/-- What a mask and match fix of a word, field by field. -/
theorem fields_of_and_eq {w m v : Word} (h : w &&& m = v) :
    nib0 w &&& nib0 m = nib0 v ∧ nib3 w &&& nib3 m = nib3 v ∧ fieldKk w &&& fieldKk m = fieldKk v := by
  subst h
  exact ⟨BitVec.extractLsb'_and.symm, BitVec.extractLsb'_and.symm, BitVec.extractLsb'_and.symm⟩

/-- The word that a row selects decodes to what the row builds. `CLS` and `RET` fix the whole word; of
every other row, the fields that the mask fixes are those that the decoder tests. -/
theorem decodeWord_of_selects (w : Word) :
    ∀ r ∈ opcodeRows, r.selects w = true → decodeWord w = some (r.build w) := by
  simp only [opcodeRows, opcodeRowsA, opcodeRowsB, opcodeRowsC, List.cons_append, List.nil_append,
    List.forall_mem_cons, List.not_mem_nil, IsEmpty.forall_iff, implies_true, and_true,
    OpcodeRow.selects, Bool.and_eq_true, beq_iff_eq]
  refine ⟨?_, ?cls, ?ret, ?_⟩
  case cls | ret =>
    rintro ⟨hm, -⟩
    cases (BitVec.and_allOnes (x := w)).symm.trans hm
    rfl
  and_intros
  all_goals
    rintro ⟨hm, hsys⟩
    obtain ⟨h0, h3, hk⟩ := fields_of_and_eq hm
    simp [nib0, nib3, fieldKk, nibble_and_ones, byte_and_ones] at h0 h3 hk
    simp_all [decodeWord, decode0, decode8, decodeE, decodeF, nib0, nib1, nib3, fieldKk]

/-- Two rows agree on no word under both their masks, but for the `SYS` row and a row of one single word,
which the added condition takes from `SYS` (R77). -/
theorem opcodeRows_pairwise_disjoint : opcodeRows.Pairwise fun r r' =>
    r.value &&& r'.mask ≠ r'.value &&& r.mask ∨ (r'.mask = 0xFFFF ∧ r.selects r'.value = false) := by
  decide

theorem not_selects_of_disjoint {r r' : OpcodeRow} {w : Word}
    (hdisj : r.value &&& r'.mask ≠ r'.value &&& r.mask ∨
      (r'.mask = 0xFFFF ∧ r.selects r'.value = false))
    (hr : r.selects w = true) : ¬ r'.selects w = true := by
  intro hr'
  have hm : w &&& r.mask = r.value := by
    simp only [OpcodeRow.selects, Bool.and_eq_true, beq_iff_eq] at hr
    exact hr.1
  have hm' : w &&& r'.mask = r'.value := by
    simp only [OpcodeRow.selects, Bool.and_eq_true, beq_iff_eq] at hr'
    exact hr'.1
  rcases hdisj with hne | ⟨hall, hnot⟩
  · exact hne (by rw [← hm, ← hm', BitVec.and_assoc, BitVec.and_comm r.mask, BitVec.and_assoc])
  · have hw : w = r'.value := by rw [← hm', hall]; exact BitVec.and_allOnes.symm
    rw [hw, hnot] at hr
    cases hr

/-- A list whose members exclude each other under a test passes it at most once. -/
theorem length_filter_le_one {α : Type} {p : α → Bool} {l : List α}
    (h : l.Pairwise fun a b => p a = true → ¬ p b = true) : (l.filter p).length ≤ 1 := by
  have hf := h.filter p
  match hl : l.filter p with
  | [] => exact Nat.zero_le 1
  | [_] => exact Nat.le_refl 1
  | a :: b :: rest =>
    rw [hl] at hf
    have ha : a ∈ l.filter p := by simp [hl]
    have hb : b ∈ l.filter p := by simp [hl]
    exact absurd (List.mem_filter.1 hb).2
      ((List.pairwise_cons.1 hf).1 b (by simp) (List.mem_filter.1 ha).2)

/-! ### A row for every well-formed instruction -/

open Laws in
theorem rowOfTheMap (i : Instr) : RowOfTheMap.Statement i := by
  cases i
  exacts [RowOfTheMap.sys _, RowOfTheMap.cls, RowOfTheMap.ret, RowOfTheMap.jp _, RowOfTheMap.call _,
    RowOfTheMap.seVxKk _ _, RowOfTheMap.sneVxKk _ _, RowOfTheMap.seVxVy _ _, RowOfTheMap.ldVxKk _ _,
    RowOfTheMap.addVxKk _ _, RowOfTheMap.ldVxVy _ _, RowOfTheMap.orVxVy _ _, RowOfTheMap.andVxVy _ _,
    RowOfTheMap.xorVxVy _ _, RowOfTheMap.addVxVy _ _, RowOfTheMap.subVxVy _ _, RowOfTheMap.shrVx _ _,
    RowOfTheMap.subnVxVy _ _, RowOfTheMap.shlVx _ _, RowOfTheMap.sneVxVy _ _, RowOfTheMap.ldINnn _,
    RowOfTheMap.jpV0Nnn _, RowOfTheMap.rndVxKk _ _, RowOfTheMap.drwVxVyN _ _ _, RowOfTheMap.skpVx _,
    RowOfTheMap.sknpVx _, RowOfTheMap.ldVxDt _, RowOfTheMap.ldVxK _, RowOfTheMap.ldDtVx _,
    RowOfTheMap.ldStVx _, RowOfTheMap.addIVx _, RowOfTheMap.ldFVx _, RowOfTheMap.ldBVx _,
    RowOfTheMap.ldMemVx _, RowOfTheMap.ldVxMem _]

/-- The row with the added condition is the one of `SYS`. -/
theorem build_of_sysRow (w : Word) : ∀ r ∈ opcodeRows, r.mask = 0xF000 → r.value = 0x0000 →
    r.build w = .sys (fieldNnn w) := by
  simp [opcodeRows, opcodeRowsA, opcodeRowsB, opcodeRowsC]

theorem exists_row_selects {i : Instr} (hwf : i.wf = true) :
    ∃ r ∈ opcodeRows, r.selects (encode i) = true := by
  obtain ⟨k, hk, hm, hbuild⟩ := rowOfTheMap i
  have hmem := List.getElem_mem hk
  refine ⟨_, hmem, ?_⟩
  rw [OpcodeRow.selects, hm, beq_self_eq_true, Bool.true_and, Bool.not_eq_true', Bool.eq_false_iff]
  intro hsys
  simp only [Bool.and_eq_true, beq_iff_eq] at hsys
  obtain ⟨⟨hmask, hvalue⟩, h1⟩ := hsys
  have hi := hbuild.symm.trans (build_of_sysRow (encode i) _ hmem hmask hvalue)
  rw [hi, encode, nib1_formatA] at h1
  rw [hi] at hwf
  simp only [Instr.wf, h1] at hwf
  cases hwf

/-- Settles O6: the 35 rows exclude each other; the one found decodes the word, and where none is found
the word has no instruction, for that instruction's own row would select it. -/
theorem atMostOneRowSelectsAWord : Obligations.AtMostOneRowSelectsAWord := by
  intro w
  refine ⟨length_filter_le_one (opcodeRows_pairwise_disjoint.imp not_selects_of_disjoint), ?_⟩
  cases hfind : opcodeRows.find? fun r => r.selects w with
  | some r =>
    exact (decodeWord_of_selects w r (List.mem_of_find?_eq_some hfind)
      (List.find?_some (p := (OpcodeRow.selects · w)) hfind)).symm
  | none =>
    symm
    rw [Option.map_none, Option.eq_none_iff_forall_ne_some]
    intro i hi
    obtain ⟨hwf, rfl⟩ := encode_of_decodeWord hi
    obtain ⟨r, hr, hsel⟩ := exists_row_selects hwf
    exact List.find?_eq_none.1 hfind r hr hsel

/-- Settles O7, by running the decoder on the thirteen words. -/
theorem decodeOfWordsOfTheSpec : Obligations.DecodeOfWordsOfTheSpec := by
  unfold Obligations.DecodeOfWordsOfTheSpec
  decide

end Sys2Proof
end

section
/-! PROOFS. The step at an instruction, at a fault, in the halted condition and at the end of a run
(spec/40_step_cycle R100, R101, R109; spec/60_exceptions R205, R207; spec/70_reset_and_hazards R270). -/

namespace Sys2Proof.Machine

open Sys2Proof.Claims

/-! ### The instruction at `PC` -/

theorem State.fetchDecode_eq_ok {s : State} {i : Instr} (hpc : s.PC.toNat ≤ 0xFFE)
    (hi : decodeWord (wordAt s s.PC.toNat) = some i) : s.fetchDecode = .ok i := by
  simp only [State.fetchDecode, State.fetch_eq_wordAt hpc, hi]

theorem decodeWord_of_decode_pair {a b : Byte} {i : Instr} (h : decode [a, b] = .ok (i, [])) :
    decodeWord (wordOfBytes a b) = some i := by
  cases hw : decodeWord (wordOfBytes a b) with
  | none => simp only [decode, hw] at h; cases h
  | some j => simp only [decode, hw] at h; cases h; rfl

/-- The step at a word that decodes. -/
theorem step_eq_exec {s : State} {i : Instr} (hnext : TickNext s) (hexec : CanExecute s)
    (hpc : s.PC.toNat ≤ 0xFFE) (hi : decodeWord (wordAt s s.PC.toNat) = some i) :
    step s = exec i (Ticked s) :=
  (step_eq_tick_ticked hnext).trans
    (tick_eq_exec hexec (State.fetchDecode_eq_ok (s := Ticked s) hpc hi))

/-- Settles O8: the bytes at `PC` make the word that the fetch reads. -/
theorem stepRunsTheDecodedInstruction : Obligations.StepRunsTheDecodedInstruction :=
  fun _ _ hnext hexec hpc hdec => step_eq_exec hnext hexec hpc (decodeWord_of_decode_pair hdec)

/-! ### A placed word -/

theorem tableWord_toNat (w : Word) : tableWord 16 w.toNat = w := by
  rw [tableWord, Nat.mod_eq_of_lt w.isLt, BitVec.ofNat_toNat, BitVec.setWidth_eq]

theorem State.placeWord_PC_le (s : State) (w : Word) : (s.placeWord w).PC.toNat ≤ 0xFFE := by
  simp only [State.placeWord, Config.memSize]
  split_ifs
  · omega
  · decide

/-- Two bytes stored at an address make their word there. -/
theorem wordOfBytes_read_writeBytes (m : Memory) (a : Nat) (b c : Byte) :
    wordOfBytes (Memory.read (Memory.writeBytes m a [b, c]) a)
      (Memory.read (Memory.writeBytes m a [b, c]) (a + 1)) = wordOfBytes b c := by
  simp [Memory.read_writeBytes]

theorem State.wordAt_placeWord (s : State) (w : Word) :
    wordAt (s.placeWord w) (s.placeWord w).PC.toNat = w :=
  (wordOfBytes_read_writeBytes _ _ _ _).trans (wordOfBytes_bytes w)

/-- Settles O9: the placed bytes are read back at `PC`, which was moved where a fetch reaches. -/
theorem placedWordRunsNext : Obligations.PlacedWordRunsNext := by
  intro s w i hi
  rw [State.withFetchWord, tableWord_toNat]
  refine ⟨?_, rfl, rfl⟩
  exact step_eq_exec (s := s.placeWord w) (.inl rfl) ⟨rfl, rfl, rfl⟩ (s.placeWord_PC_le w)
    (by rwa [s.wordAt_placeWord])

/-! ### Fatal conditions -/

/-- Settles O11: the lowest byte the fetch misses is 0x1000, or `PC` above it. -/
theorem fetchAboveMemoryHalts : Obligations.FetchAboveMemoryHalts := by
  intro s hnext hexec hpc
  refine ⟨_, (step_eq_tick_ticked hnext).trans
    (tick_eq_raise_addressOutOfRange (s := Ticked s) hexec hpc), ?_⟩
  rw [← max_def]
  rfl

/-- The end of a key wait raises nothing. -/
theorem State.waitCheck_halt (s : State) (x : Reg) : (s.waitCheck x).halt = s.halt := by
  rcases s.waitCheck_cases x with ⟨k, -, e⟩ | ⟨-, e⟩ <;> rw [e]
  rfl

/-- A tick that halts is one `State.raise`, with the word at `PC` or with 0 where none was read. -/
theorem tick_eq_raise_of_halt {s t : State} (hrun : s.halt = none) (h : tick s = .next t)
    (hhalt : t.halt ≠ none) : ∃ c w, t = s.raise c w ∧
      (s.PC.toNat ≤ 0xFFE → w = wordAt s s.PC.toNat) ∧ (0xFFF ≤ s.PC.toNat → w = 0) := by
  rcases tick_cases s with ⟨-, e⟩ | ⟨x, -, -, e⟩ | ⟨-, -, hpc, e⟩ |
    ⟨w, -, -, hpc, hfetch, hw⟩
  · cases e.symm.trans h; exact absurd hrun hhalt
  · cases e.symm.trans h; exact absurd ((s.waitCheck_halt x).trans hrun) hhalt
  · cases e.symm.trans h; exact ⟨_, 0, rfl, fun hle => by omega, fun _ => rfl⟩
  · cases (State.fetch_eq_wordAt hpc).symm.trans hfetch
    rcases hw with ⟨-, e⟩ | ⟨i, hi, e⟩
    · cases e.symm.trans h; exact ⟨_, _, rfl, fun _ => rfl, fun hge => by omega⟩
    · rcases exec_next_cases (e.symm.trans h) with ⟨c, -, rfl⟩ | heff
      · exact ⟨c, _, rfl, fun _ => (encode_of_decodeWord hi).2, fun hge => by omega⟩
      · exact absurd (heff.halt_eq.trans hrun) hhalt

/-- Settles O13: each way to halt is `State.raise`; a handler records its instruction's own word, which
is the word it was decoded from. -/
theorem fatalStepChangesOnlyHalt : Obligations.FatalStepChangesOnlyHalt := by
  intro s t hnext hrun h hhalt
  obtain ⟨c, w, ht, hword, hnone⟩ := tick_eq_raise_of_halt (s := Ticked s) hrun
    ((step_eq_tick_ticked hnext).symm.trans h) hhalt
  exact ⟨c, w, ht, hword, hnone⟩

/-! ### The halted condition (R207) -/

theorem State.process_halt (s : State) (m : Message) :
    (s.process m).halt = if m = .reset then none else s.halt := by
  cases m with
  | reset => rfl
  | setRunning | setPaused => rfl
  | loadROM bytes =>
    rcases Nat.lt_or_ge bytes.length 0xE00 with hfits | hlarge
    · rw [s.process_loadROM_of_fits hfits]; rfl
    · rw [s.process_loadROM_of_tooLarge hlarge]; rfl

theorem foldl_process_halt (ms : List Message) : ∀ s : State,
    (ms.foldl State.process s).halt = if Message.reset ∈ ms then none else s.halt := by
  induction ms with
  | nil => exact fun _ => rfl
  | cons m ms ih =>
    intro s
    rw [List.foldl_cons, ih, s.process_halt]
    by_cases hms : Message.reset ∈ ms
    · simp [hms]
    · by_cases hm : m = .reset
      · simp [hm]
      · simp [hms, hm, Ne.symm hm]

theorem tick_eq_next_of_halted {s : State} (hhalt : s.halt ≠ none) : tick s = .next s :=
  tick_eq_next_of_nothing (s.tickAction_eq_nothing_iff.2 (.inl hhalt))

/-- Settles O16: a `step_tick` finds nothing to do, the other agents do not write `halt`, and of the
messages a drain processes only `Reset` does. -/
theorem haltIsLeftOnlyByReset : Obligations.HaltIsLeftOnlyByReset := by
  intro s t r hr h
  have hhalt : s.halt ≠ none := by rw [hr]; exact Option.some_ne_none r
  rcases step_cases s with ⟨hs, e⟩ | ⟨rest, hs, e⟩ | ⟨o, rest, hs, e⟩
  · rw [tick_eq_next_of_halted hhalt] at e
    cases e.symm.trans h
    rw [hs]; exact hr
  · rw [tick_eq_next_of_halted (s := { s with schedule := rest }) hhalt] at e
    cases e.symm.trans h
    rw [hs]; exact hr
  · cases e.symm.trans h
    rw [hs]
    cases o with
    | drain => exact (foldl_process_halt s.msgQueue _).trans (by rw [hr])
    | tick60 | keyDown | keyUp | send => exact hr

/-! ### The end of a run (R270) -/

/-- Below 0x1000 the word of R270 is the encoding of a jump to `PC`. -/
theorem or_eq_encode_jp {pc : Word} (hpc : pc.toNat ≤ 0xFFE) :
    0x1000 ||| pc = encode (.jp (fieldNnn pc)) ∧ immAddr (fieldNnn pc) = pc := by
  have h0 : nib0 pc = 0#4 := by
    refine BitVec.eq_of_toNat_eq ((nib0_toNat pc).trans ?_)
    rw [Nat.shiftRight_eq_div_pow]
    exact Nat.div_eq_of_lt (by omega)
  have hw := word_of_formatA pc
  rw [h0] at hw
  constructor
  · have h1 : (0x1000 : Word) = 0x1#4 ++ 0#12 := by decide
    conv_lhs => rw [← hw, h1, BitVec.or_append, BitVec.zero_or, BitVec.or_zero]
    rfl
  · refine BitVec.eq_of_toNat_eq ((toNat_immAddr _).trans ?_)
    rw [fieldNnn_toNat]
    exact (Nat.and_two_pow_sub_one_eq_mod pc.toNat 12).trans (Nat.mod_eq_of_lt (by omega))

theorem State.endedNormally_iff (s : State) : s.endedNormally = true ↔
    s.halt = none ∧ s.wait = .ready ∧ s.fetch = .ok (0x1000 ||| s.PC) := by
  cases hf : s.fetch <;> simp [State.endedNormally, hf, and_assoc]

/-- Settles O60: paused, the tick does nothing; running, it jumps to where it stands. -/
theorem endedRunStaysEnded : Obligations.EndedRunStaysEnded := by
  intro s hend hnext
  obtain ⟨hrun, hready, hfetch⟩ := s.endedNormally_iff.1 hend
  cases hstate : s.runState with
  | paused =>
    exact (step_eq_tick_ticked hnext).trans (tick_eq_next_of_nothing
      ((Ticked s).tickAction_eq_nothing_iff.2 (.inr hstate)))
  | running =>
    rcases s.fetch_cases with ⟨-, e⟩ | ⟨hpc, -⟩
    · cases e.symm.trans hfetch
    · obtain ⟨hword, htarget⟩ := or_eq_encode_jp hpc
      have hat : wordAt s s.PC.toNat = encode (.jp (fieldNnn s.PC)) := by
        exact (Except.ok.inj ((State.fetch_eq_wordAt hpc).symm.trans hfetch)).trans hword
      rw [step_eq_exec hnext ⟨hrun, hstate, hready⟩ hpc (by rw [hat]; exact decodeWord_encode rfl)]
      exact congrArg Host.Outcome.next ((congrArg (Ticked s).jump htarget).trans (Ticked s).jump_PC_self)

end Sys2Proof.Machine
end

section
/-! PROOFS. Calls, returns, `JP V0,nnn` and `SYS` (spec/41_jump_call R120 to R124). -/

namespace Sys2Proof.Machine

open Sys2Proof.Claims

/-! ### `CALL` and `RET` within the limits -/

theorem exec_call_of_lt {s : State} (nnn : Addr12) (hsp : s.SP.toNat < 15) :
    exec (.call nnn) s = .next ((s.push (s.PC + 2)).jump (immAddr nnn)) := by
  rcases execCall_cases nnn s with ⟨h15, -⟩ | ⟨-, e⟩ | ⟨habove, -⟩
  · rw [h15] at hsp; exact absurd hsp (by decide)
  · exact e
  · omega

theorem exec_ret_of_ne_zero {s : State} {k : Fin 16} (hsp : s.SP.toNat = k.val) (hk : k ≠ 0) :
    exec .ret s = .next (s.pop.jump s.stack[k]) := by
  rcases execRet_cases s with ⟨h0, -⟩ | ⟨j, hj, -, e⟩ | ⟨habove, -⟩
  · exact absurd (Fin.ext (by rw [← hsp, h0]; rfl)) hk
  · cases Fin.ext (hsp.symm.trans hj)
    exact e
  · omega

/-- Settles O21: the default policy only moves on; the other one is a `State.raise`. -/
theorem sysOnlyAdvances : Obligations.SysOnlyAdvances := fun _ _ => ⟨rfl, rfl⟩

/-- Settles O23: one push, whose entry and `SP` are those of `State.push_spec`, and one jump. -/
theorem callPushesAndJumps : Obligations.CallPushesAndJumps := by
  intro s nnn hsp
  obtain ⟨hnewSP, hentries⟩ := s.push_spec (s.PC + 2) hsp
  exact ⟨_, exec_call_of_lt nnn hsp, hnewSP, hentries, toNat_immAddr nnn, rfl⟩

/-- Settles O24: one pop and one jump to the entry that `SP` named. -/
theorem returnPopsAndJumps : Obligations.ReturnPopsAndJumps := by
  intro s k hsp hk
  have hne : s.SP ≠ 0 := fun h0 => hk (Fin.ext (by rw [← hsp, h0]; rfl))
  exact ⟨_, exec_ret_of_ne_zero hsp hk, rfl, s.pop_spec hne, rfl⟩

/-- Settles O25: the return finds the entry the call has just pushed, and takes `SP` back by the one it
was raised. -/
theorem returnUndoesCall : Obligations.ReturnUndoesCall := by
  intro s t nnn hsp h
  cases (exec_call_of_lt nnn hsp).symm.trans h
  obtain ⟨hnewSP, hentries⟩ := s.push_spec (s.PC + 2) hsp
  let k : Fin 16 := ⟨s.SP.toNat + 1, by omega⟩
  have hne : k ≠ 0 := fun h0 => by cases congrArg Fin.val h0
  have hra : ((s.push (s.PC + 2)).jump (immAddr nnn)).stack[k] = s.PC + 2 :=
    (hentries k).trans (if_pos rfl)
  have hback : s.SP + 1 - 1 = s.SP := BitVec.add_sub_cancel _ _
  have hret := exec_ret_of_ne_zero (s := (s.push (s.PC + 2)).jump (immAddr nnn))
    (k := k) hnewSP hne
  refine ⟨_, hret, hra, hback, fun j hj => (hentries j).trans (if_neg (by omega)), ?_⟩
  rw [hra]
  simp only [State.pop, State.jump, State.push, hback]

/-- Settles O26: neither operand reaches far enough for the 16-bit sum to wrap. -/
theorem jumpPlusV0NeverWraps : Obligations.JumpPlusV0NeverWraps := by
  intro s nnn
  have hsum := toNat_immAddr_add_vWord s nnn 0
  refine ⟨_, rfl, hsum, hsum.trans_le ?_, rfl⟩
  have := nnn.isLt
  have := (s.v 0).isLt
  omega

end Sys2Proof.Machine
end

section
/-! PROOFS. The register skips and the ALU (spec/42_skip R131 to R133, spec/43_alu R141 to R149, R151). -/

namespace Sys2Proof.Machine

open Sys2Proof.Claims

/-! ### Skips -/

theorem next_skipIf_of_true {s : State} {c : Bool} (hc : c = true) :
    (.next (s.skipIf c) : Result) = .next { s with PC := s.PC + 4 } := by
  rw [hc]; rfl

theorem next_skipIf_of_false {s : State} {c : Bool} (hc : c = false) :
    (.next (s.skipIf c) : Result) = .next { s with PC := s.PC + 2 } := by
  rw [hc]; rfl

/-- Settles O28: each handler is one skip on its comparison. -/
theorem otherRegisterSkips : Obligations.OtherRegisterSkips := fun _ _ _ _ =>
  ⟨fun hne => next_skipIf_of_true (bne_iff_ne.2 hne),
    fun heq => next_skipIf_of_false (bne_eq_false_iff_eq.2 heq),
    fun heq => next_skipIf_of_true (beq_iff_eq.2 heq),
    fun hne => next_skipIf_of_false (beq_eq_false_iff_ne.2 hne),
    fun hne => next_skipIf_of_true (bne_iff_ne.2 hne),
    fun heq => next_skipIf_of_false (bne_eq_false_iff_eq.2 heq)⟩

/-! ### Sums, differences and their flags -/

theorem sumByte_eq (a b : Byte) : sumByte a b = a + b := BitVec.eq_of_toNat_eq (by simp [sumByte])

theorem differenceByte_eq (a b : Byte) : differenceByte a b = a - b := by
  have hb := b.isLt
  refine BitVec.eq_of_toNat_eq ?_
  rw [differenceByte, BitVec.toNat_ofNat, BitVec.toNat_sub]
  congr 1
  omega

/-- R151: the sum and its carry are the sum of the operands. -/
theorem toNat_sumByte_add_carry (a b : Byte) :
    (sumByte a b).toNat + 256 * (flagByte (carryFlag a b)).toNat = a.toNat + b.toNat := by
  have ha := a.isLt
  have hb := b.isLt
  rw [sumByte, BitVec.toNat_ofNat, carryFlag]
  by_cases hc : 255 < a.toNat + b.toNat
  · rw [decide_eq_true hc]
    change (a.toNat + b.toNat) % 256 + 256 * 1 = _
    omega
  · rw [decide_eq_false hc]
    change (a.toNat + b.toNat) % 256 + 256 * 0 = _
    omega

/-- Settles O30: each is one write of `Vx`; the sum in natural numbers is cut to 8 bits. -/
theorem flaglessRegisterInstructions : Obligations.FlaglessRegisterInstructions := by
  intro s x y kk
  rw [← sumByte_eq]
  exact ⟨⟨_, rfl, writesOnly_setV_advance s x _⟩, ⟨_, rfl, writesOnly_setV_advance s x _⟩,
    ⟨_, rfl, writesOnly_setV_advance s x _⟩, ⟨_, rfl, writesOnly_setV_advance s x _⟩,
    ⟨_, rfl, writesOnly_setV_advance s x _⟩⟩

/-- Settles O31: each latches its operands and writes flag and result in one operation. The law of `ADD`
reads both back, which it can where the result did not go to `VF`. -/
theorem arithmeticWithFlag : Obligations.ArithmeticWithFlag := by
  intro s x y
  rw [← sumByte_eq, ← differenceByte_eq, ← differenceByte_eq]
  refine ⟨⟨_, rfl, writesFlagAndResult_setFlagThenResult_advance .., fun hx => ?_⟩,
    ⟨_, rfl, writesFlagAndResult_setFlagThenResult_advance ..⟩,
    ⟨_, rfl, writesFlagAndResult_setFlagThenResult_advance ..⟩⟩
  simp only [State.advance_v, State.v_setFlagThenResult, if_true, if_neg hx.symm]
  exact toNat_sumByte_add_carry (s.v x) (s.v y)

end Sys2Proof.Machine
end

section
/-! PROOFS. The random number and the display (spec/44_random_display R160 to R164). -/

namespace Sys2Proof.Machine

open Sys2Proof.Claims

/-! ### `RND` and `CLS` -/

/-- Settles O33: the byte is masked when it is written, so that a bit clear in `kk` is clear; the count
of draws is the one other field written. -/
theorem randomIsMasked : Obligations.RandomIsMasked := by
  intro s x kk
  have hx : (s.setV x (Config.randomByte s.draws &&& kk)).v x = _ := s.v_setV_same x _
  refine ⟨_, rfl, hx, fun j hj => ?_, fun h0 => ?_, fun r hr => s.v_setV_other _ hr, rfl⟩
  · exact (congrArg (BitVec.getLsbD · j) hx).trans (by rw [BitVec.getLsbD_and, hj, Bool.and_false])
  · exact hx.trans (by rw [h0]; exact BitVec.and_zero)

/-- Settles O34: no cell is listed any more. -/
theorem clearScreenClearsEveryCell : Obligations.ClearScreenClearsEveryCell := fun _ =>
  ⟨_, rfl, fun _ => rfl, fun _ _ => rfl, rfl⟩

/-! ### The cells of a sprite and the sprite's bits -/

/-- The cells that `DRW Vx,Vy,n` toggles, `DRW_VWRAP` being false. -/
def State.drwCells (s : State) (x y : Reg) (n : Nibble) : List Nat :=
  spriteCells (screenWidth s.hires) (screenHeight s.hires) false (s.spriteX x) (s.spriteY y)
    (Memory.readBytes s.memory s.indexAddr n.toNat)

theorem State.nodup_drwCells (s : State) (x y : Reg) (n : Nibble) : (s.drwCells x y n).Nodup :=
  nodup_spriteCells (screenWidth_ge s.hires) _ _ _ _

theorem State.drwCells_lt (s : State) {x y : Reg} {n : Nibble} {c : Nat}
    (hc : c ∈ s.drwCells x y n) : c < width s * height s :=
  spriteCells_lt (Nat.lt_of_lt_of_le (by decide) (screenWidth_ge s.hires)) hc

theorem spriteBit_eq_true_iff (s : State) (x y : Reg) (n : Nibble) (cx cy : Nat) :
    spriteBit s x y n cx cy = true ↔ ∃ r, r < n.toNat ∧ ∃ k, k < 8 ∧
      (s.memoryAt (s.I.toNat + r)).getLsbD (7 - k) = true ∧ s.spriteY y + r = cy ∧
        (s.spriteX x + k) % width s = cx := by
  simp only [spriteBit, List.any_eq_true, List.mem_range, Bool.and_eq_true, decide_eq_true_eq,
    and_assoc]
  rfl

theorem State.mem_drwCells (s : State) (x y : Reg) (n : Nibble) (c : Nat) :
    c ∈ s.drwCells x y n ↔ ∃ r, r < n.toNat ∧ s.spriteY y + r < height s ∧ ∃ k, k < 8 ∧
      (s.memoryAt (s.I.toNat + r)).getLsbD (7 - k) = true ∧
        c = cellAt (width s) ((s.spriteX x + k) % width s) (s.spriteY y + r) := by
  rw [State.drwCells, mem_spriteCells]
  simp only [Memory.getElem_readBytes, Memory.length_readBytes, exists_prop]
  rfl

theorem width_pos (s : State) : 0 < width s :=
  Nat.lt_of_lt_of_le (by decide) (screenWidth_ge s.hires)

/-- A set bit of the sprite on a pixel of the mode is the pixel's cell among those drawn. -/
theorem State.cellAt_mem_drwCells_iff {s : State} (x y : Reg) (n : Nibble) {cx cy : Nat}
    (hx : cx < width s) (hy : cy < height s) :
    cellAt (width s) cx cy ∈ s.drwCells x y n ↔ spriteBit s x y n cx cy = true := by
  rw [s.mem_drwCells, spriteBit_eq_true_iff]
  constructor
  · rintro ⟨r, hr, -, k, hk, hbit, hc⟩
    obtain ⟨hcx, hcy⟩ := cellAt_inj hx (Nat.mod_lt _ (width_pos s)) hc
    exact ⟨r, hr, k, hk, hbit, hcy.symm, hcx.symm⟩
  · rintro ⟨r, hr, k, hk, hbit, rfl, rfl⟩
    exact ⟨r, hr, hy, k, hk, hbit, rfl⟩

/-- Some cell drawn has a property exactly when some pixel of the mode under a set bit has it. -/
theorem State.exists_mem_drwCells_iff {s : State} (x y : Reg) (n : Nibble) (p : Nat → Prop) :
    (∃ c ∈ s.drwCells x y n, p c) ↔ ∃ cx cy, cx < width s ∧ cy < height s ∧
      p (cellAt (width s) cx cy) ∧ spriteBit s x y n cx cy = true := by
  constructor
  · rintro ⟨c, hc, hp⟩
    obtain ⟨r, hr, hy, k, hk, hbit, rfl⟩ := (s.mem_drwCells x y n c).1 hc
    have hx := Nat.mod_lt (s.spriteX x + k) (width_pos s)
    exact ⟨_, _, hx, hy, hp, (State.cellAt_mem_drwCells_iff x y n hx hy).1 hc⟩
  · rintro ⟨cx, cy, hx, hy, hp, hbit⟩
    exact ⟨_, (State.cellAt_mem_drwCells_iff x y n hx hy).2 hbit, hp⟩

/-! ### What `DRW` does -/

/-- `DRW` with its sprite in memory. -/
def State.afterDrw (s : State) (x y : Reg) (n : Nibble) : State :=
  (s.drawSprite false x y (Memory.readBytes s.memory s.indexAddr n.toNat)).advance

theorem exec_drwVxVyN {s : State} (x y : Reg) {n : Nibble}
    (hin : n = 0 ∨ s.indexAddr + n.toNat ≤ 0x1000) :
    exec (.drwVxVyN x y n) s = .next (s.afterDrw x y n) := by
  rcases execDrwVxVyN_cases x y n s with ⟨hn, hend, -⟩ | ⟨-, e⟩
  · rcases hin with rfl | hle
    · exact absurd hn (by decide)
    · omega
  · exact e

theorem State.afterDrw_lit (s : State) (x y : Reg) (n : Nibble) (c : Nat) :
    Screen.lit (s.afterDrw x y n).screen c =
      if c ∈ s.drwCells x y n then !Screen.lit s.screen c else Screen.lit s.screen c :=
  (drawCells_nodup s.screen false (s.nodup_drwCells x y n)).1 c

theorem State.afterDrw_VF (s : State) (x y : Reg) (n : Nibble) :
    (s.afterDrw x y n).v 15 = flagByte ((s.drwCells x y n).any (Screen.lit s.screen)) := by
  have hhit : (drawCells (s.drwCells x y n) (s.screen, false)).2 = _ :=
    (drawCells_nodup s.screen false (s.nodup_drwCells x y n)).2
  rw [Bool.false_or] at hhit
  exact (State.v_setV_same _ _ _).trans (congrArg flagByte hhit)

theorem State.afterDrw_v {s : State} {r : Reg} (x y : Reg) (n : Nibble) (hr : r ≠ 15) :
    (s.afterDrw x y n).v r = s.v r :=
  State.v_setV_other _ _ hr

theorem flagByte_eq_one_iff (f : Bool) : flagByte f = 1 ↔ f = true := by cases f <;> decide

theorem flagByte_eq_zero_or_one (f : Bool) : flagByte f = 0 ∨ flagByte f = 1 := by
  cases f <;> decide

/-- The flag of a draw, as a pixel that was lit under a set bit. -/
theorem State.afterDrw_VF_eq_one_iff (s : State) (x y : Reg) (n : Nibble) :
    (s.afterDrw x y n).v 15 = 1 ↔ ∃ c ∈ s.drwCells x y n, Screen.lit s.screen c = true := by
  rw [s.afterDrw_VF, flagByte_eq_one_iff, List.any_eq_true]

/-- Settles O35: the cells drawn are distinct, so that each is toggled once, and they are the pixels of
the mode under the set bits of the sprite. -/
theorem drawXorsTheSprite : Obligations.DrawXorsTheSprite := by
  intro s x y n hin
  refine ⟨_, exec_drwVxVyN x y hin, fun cx cy hx hy => ?_, fun c hc => ?_, ?_, ?_,
    fun r hr => State.afterDrw_v x y n hr, rfl⟩
  · have hcell := State.cellAt_mem_drwCells_iff x y n hx hy
    have hlit : (s.afterDrw x y n).pixelAt cx cy = _ :=
      s.afterDrw_lit x y n (cellAt (width s) cx cy)
    rw [hlit]
    change _ = (Screen.lit s.screen (cellAt (width s) cx cy) ^^ _)
    cases hbit : spriteBit s x y n cx cy <;> simp [hcell, hbit]
  · rw [s.afterDrw_lit, if_neg fun hmem => (s.drwCells_lt hmem).not_ge hc]
  · rw [s.afterDrw_VF]; exact flagByte_eq_zero_or_one _
  · rw [s.afterDrw_VF_eq_one_iff]
    exact State.exists_mem_drwCells_iff x y n (Screen.lit s.screen · = true)

/-- A draw moves neither its place nor its sprite, unless a coordinate stands in `VF`. -/
theorem State.drwCells_afterDrw (s : State) {x y : Reg} (n : Nibble) (hx : x ≠ 15) (hy : y ≠ 15) :
    (s.afterDrw x y n).drwCells x y n = s.drwCells x y n := by
  have hX : (s.afterDrw x y n).spriteX x = s.spriteX x := by
    rw [State.spriteX, State.afterDrw_v x y n hx]; rfl
  have hY : (s.afterDrw x y n).spriteY y = s.spriteY y := by
    rw [State.spriteY, State.afterDrw_v x y n hy]; rfl
  rw [State.drwCells, hX, hY]
  rfl

/-- Settles O36: the second draw toggles the same cells back, and meets a lit one exactly where the
first met a clear one. -/
theorem drawTwiceRestoresTheScreen : Obligations.DrawTwiceRestoresTheScreen := by
  intro s t x y n hin hx hy h
  cases (exec_drwVxVyN x y hin).symm.trans h
  have hcells := s.drwCells_afterDrw n hx hy
  refine ⟨_, exec_drwVxVyN x y hin, fun c => ?_, ?_⟩
  · rw [State.afterDrw_lit, hcells, State.afterDrw_lit]
    split_ifs <;> simp
  · rw [State.afterDrw_VF_eq_one_iff, hcells]
    refine Iff.trans ?_ (State.exists_mem_drwCells_iff x y n (Screen.lit s.screen · = false))
    refine exists_congr fun c => and_congr_right fun hc => ?_
    rw [State.afterDrw_lit, if_pos hc, Bool.not_eq_true']

end Sys2Proof.Machine
end

section
/-! PROOFS. The keypad instructions and the wait (spec/45_keypad R170 to R174). -/

namespace Sys2Proof.Machine

open Sys2Proof.Claims

/-! ### The key skips -/

/-- The key a register names is one. -/
theorem State.next_skipOnKey {s : State} {x : Reg} {k : Key} (hk : (s.v x).toNat = k.val)
    (w : Word) (f : Bool → Bool) :
    (.next (s.skipOnKey x w f) : Result) = .next { s with PC := skipPc s (f s.keysDown[k]) } := by
  rcases s.skipOnKey_cases x w f with ⟨j, hj, e⟩ | ⟨habove, -⟩
  · cases Fin.ext (hj.symm.trans hk)
    rw [e, State.skipIf_eq]
    rfl
  · have := k.isLt
    omega

theorem State.skipOnKey_halts {s : State} {x : Reg} (hkey : 15 < (s.v x).toNat) (w : Word)
    (f : Bool → Bool) : Halts s (s.skipOnKey x w f) (.keyIndexOutOfRange (s.v x)) w := by
  rcases s.skipOnKey_cases x w f with ⟨j, hj, -⟩ | ⟨-, e⟩
  · have := j.isLt
    omega
  · exact e

/-- Settles O37: both skips are one operation under opposite tests. -/
theorem keySkips : Obligations.KeySkips := fun _ _ =>
  ⟨fun _ hk => ⟨State.next_skipOnKey hk _ _, State.next_skipOnKey hk _ _⟩,
    fun hkey => ⟨⟨_, rfl, State.skipOnKey_halts hkey _ _⟩, ⟨_, rfl, State.skipOnKey_halts hkey _ _⟩⟩⟩

/-! ### The key wait -/

theorem State.toNat_takeKey_v (s : State) (x : Reg) (k : Key) :
    ((s.takeKey x k).v x).toNat = k.val :=
  (congrArg BitVec.toNat (s.v_setV_same x (byteOfKey k))).trans (toNat_byteOfKey k)

theorem State.takeKey_v_other (s : State) {x r : Reg} (k : Key) (hr : r ≠ x) :
    (s.takeKey x k).v r = s.v r :=
  s.v_setV_other _ hr

/-- No key down, and some key down, exclude each other. -/
theorem State.not_allUp {s : State} (hdown : ∃ k : Key, s.keysDown[k] = true) :
    ¬ ∀ k : Key, s.keysDown[k] = false := fun hup => by
  obtain ⟨k, hk⟩ := hdown
  rw [hup k] at hk
  cases hk

/-- Settles O38: the two answers of the instruction, by whether a key is down. -/
theorem waitForKeyInstruction : Obligations.WaitForKeyInstruction := by
  intro s x
  rcases execLdVxK_cases x s with ⟨k, hk, e⟩ | ⟨hup, e⟩
  · exact ⟨fun hup => absurd hup (State.not_allUp ⟨k, hk⟩), fun _ =>
      ⟨_, k, e, hk, s.toNat_takeKey_v x k, fun r hr => s.takeKey_v_other k hr, rfl⟩⟩
  · exact ⟨fun _ => e, fun hdown => absurd hup (State.not_allUp hdown)⟩

theorem step_eq_waitCheck {s : State} {x : Reg} (hnext : TickNext s) (hrun : s.halt = none)
    (hstate : s.runState = .running) (hwait : s.wait = .awaitingKey x) :
    step s = .next ((Ticked s).waitCheck x) :=
  (step_eq_tick_ticked hnext).trans
    (tick_eq_waitCheck (((Ticked s).tickAction_eq_checkWait_iff x).2 ⟨hrun, hstate, hwait⟩))

/-- Settles O39: the two answers of the wait check, by whether a key is down. -/
theorem waitCheckCompletes : Obligations.WaitCheckCompletes := by
  intro s x hnext hrun hstate hwait
  rw [step_eq_waitCheck hnext hrun hstate hwait]
  rcases (Ticked s).waitCheck_cases x with ⟨k, hk, e⟩ | ⟨hup, e⟩ <;> rw [e]
  · exact ⟨fun hup => absurd hup (State.not_allUp (s := s) ⟨k, hk⟩), fun _ =>
      ⟨_, k, rfl, hk, (Ticked s).toNat_takeKey_v x k,
        fun r hr => (Ticked s).takeKey_v_other k hr, rfl⟩⟩
  · exact ⟨fun _ => rfl, fun hdown => absurd hup (State.not_allUp (s := s) hdown)⟩

/-- The wait check and the instruction, executed ready, draw one key and do the same with it; with none
the instruction suspends again, into the state that waits. -/
theorem waitCheck_eq_execLdVxK {s : State} {x : Reg} (hwait : s.wait = .awaitingKey x) :
    .next (s.waitCheck x) = execLdVxK x { s with wait := .ready } := by
  have hdraw : State.drawKey { s with wait := .ready } = s.drawKey := rfl
  rw [State.waitCheck, execLdVxK, hdraw]
  cases s.drawKey with
  | some k => rfl
  | none =>
    change Host.Outcome.next s = .next { s with wait := .awaitingKey x }
    rw [← hwait]

/-- Settles O40: the step of the ready state fetches the word of `LD Vx,K` and executes it. -/
theorem waitIsReexecution : Obligations.WaitIsReexecution := by
  intro s x hnext hrun hstate hwait hpc hword
  have hready := step_eq_exec (s := { s with wait := .ready }) (i := .ldVxK x) hnext
    ⟨hrun, hstate, rfl⟩ hpc ((congrArg decodeWord hword).trans (decodeWord_encode rfl))
  exact (step_eq_waitCheck hnext hrun hstate hwait).trans
    ((waitCheck_eq_execLdVxK (s := Ticked s) hwait).trans hready.symm)

end Sys2Proof.Machine
end

section
/-! PROOFS. Timers, the index register and memory transfers (spec/46_timer_index_memory R180 to R190,
spec/20_memory R57, R58, R65). -/

namespace Sys2Proof.Machine

open Sys2Proof.Claims

/-! ### Timers and index register -/

theorem toNat_add_vWord (s : State) (a : Word) (x : Reg) :
    (a + s.vWord x).toNat = (a.toNat + (s.v x).toNat) % 0x10000 := by
  rw [BitVec.toNat_add, State.vWord, BitVec.toNat_setWidth_of_le (by decide)]

theorem toNat_glyphAddr (b : Byte) : (glyphAddr b).toNat = 5 * b.toNat := by
  have := b.isLt
  rw [glyphAddr, BitVec.toNat_ofNat]
  exact Nat.mod_eq_of_lt (by simp only [Config.glyphBytes]; omega)

/-- Settles O41: each writes one field and moves on. -/
theorem timerAndIndexTransfers : Obligations.TimerAndIndexTransfers := fun s x nnn =>
  ⟨⟨_, rfl, toNat_immAddr nnn, rfl⟩, ⟨_, rfl, writesOnly_setV_advance s x s.DT⟩, rfl, rfl,
    ⟨_, rfl, toNat_add_vWord s s.I x, rfl⟩, ⟨_, rfl, toNat_glyphAddr (s.v x), rfl⟩⟩

/-! ### Stores and loads within memory -/

theorem exec_ldBVx {s : State} {x : Reg} (hin : s.indexAddr + 3 ≤ 0x1000) :
    exec (.ldBVx x) s =
      .next (s.setMemory (Memory.writeBytes s.memory s.indexAddr (bcdDigits (s.v x)))).advance := by
  rcases execLdBVx_cases x s with ⟨hend, -⟩ | ⟨-, e⟩
  · omega
  · exact e

theorem exec_ldMemVx {s : State} {x : Reg} (hin : s.indexAddr + (x.toNat + 1) ≤ 0x1000) :
    exec (.ldMemVx x) s =
      .next (s.setMemory (Memory.writeBytes s.memory s.indexAddr (s.regBlock x))).advance := by
  rcases execLdMemVx_cases x s with ⟨hend, -⟩ | ⟨-, e⟩
  · omega
  · exact e

theorem exec_ldVxMem {s : State} {x : Reg} (hin : s.indexAddr + (x.toNat + 1) ≤ 0x1000) :
    ∃ V', exec (.ldVxMem x) s = .next ({ s with V := V' } : State).advance ∧
      ∀ r : Reg, V'[r.toNat] =
        if r.toNat ≤ x.toNat then s.memoryAt (s.indexAddr + r.toNat) else s.v r := by
  rcases execLdVxMem_cases x s with ⟨hend, -⟩ | ⟨-, V', e, hV⟩
  · omega
  · exact ⟨V', e, fun r => hV r.toNat r.isLt⟩

/-- A byte of a stored run, by its place in the run. -/
theorem Memory.read_writeBytes_at (m : Memory) (a k : Nat) (bs : List Byte) (hk : k < bs.length) :
    Memory.read (Memory.writeBytes m a bs) (a + k) = bs[k] := by
  rw [Memory.read_writeBytes, dif_pos ⟨by omega, by omega⟩]
  simp

theorem read_writeBytes_regBlock (s : State) (m : Memory) (a : Nat) {x r : Reg}
    (hr : r.toNat ≤ x.toNat) :
    Memory.read (Memory.writeBytes m a (s.regBlock x)) (a + r.toNat) = s.v r :=
  (Memory.read_writeBytes_at m a r.toNat _ (by rw [s.length_regBlock]; omega)).trans
    (s.getElem_regBlock x _ _)

/-- The three bytes that `LD B,Vx` leaves: hundreds, tens, units. -/
theorem toNat_read_writeBytes_bcdDigits (m : Memory) (a : Nat) (b : Byte) :
    let m' := Memory.writeBytes m a (bcdDigits b)
    (Memory.read m' a).toNat = b.toNat / 100 ∧ (Memory.read m' (a + 1)).toNat = b.toNat / 10 % 10 ∧
      (Memory.read m' (a + 2)).toNat = b.toNat % 10 := by
  have hb := b.isLt
  have hlen : (bcdDigits b).length = 3 := rfl
  have h0 := Memory.read_writeBytes_at m a 0 (bcdDigits b) (by omega)
  have h1 := Memory.read_writeBytes_at m a 1 (bcdDigits b) (by omega)
  have h2 := Memory.read_writeBytes_at m a 2 (bcdDigits b) (by omega)
  simp only [bcdDigits, Nat.add_zero, List.getElem_cons_zero, List.getElem_cons_succ] at h0 h1 h2 ⊢
  simp only [h0, h1, h2, BitVec.toNat_ofNat]
  omega

/-- Settles O42: the three bytes stored are the digits of `Vx` in base ten. -/
theorem bcdDigitsAreStored : Obligations.BcdDigitsAreStored := by
  intro s x hin
  obtain ⟨hh, ht, hu⟩ := toNat_read_writeBytes_bcdDigits s.memory s.indexAddr (s.v x)
  refine ⟨_, exec_ldBVx hin, ?_, ?_, ?_, fun a ha => Memory.read_writeBytes_outside _ ha, rfl⟩
  all_goals simp only [State.memoryAt, State.advance_memory, State.setMemory_memory, hh, ht, hu]
  all_goals omega

/-- Settles O43: the block stored is that of the registers up to `Vx`. -/
theorem registersAreStored : Obligations.RegistersAreStored := by
  intro s x hin
  refine ⟨_, exec_ldMemVx hin, fun r hr => read_writeBytes_regBlock s s.memory s.indexAddr hr,
    fun a ha => Memory.read_writeBytes_outside _ ?_, rfl⟩
  rwa [s.length_regBlock]

/-- Settles O44: the registers written are those up to `Vx`. -/
theorem registersAreLoaded : Obligations.RegistersAreLoaded := by
  intro s x hin
  obtain ⟨V', e, hV⟩ := exec_ldVxMem hin
  exact ⟨_, e, hV, rfl⟩

/-- Settles O46: the load reads each byte that the store wrote, at the same address. -/
theorem storeThenLoadRestoresRegisters : Obligations.StoreThenLoadRestoresRegisters := by
  intro s t x V' hin h
  cases (exec_ldMemVx hin).symm.trans h
  obtain ⟨W, e, hW⟩ := exec_ldVxMem (x := x) (s := { (s.setMemory (Memory.writeBytes s.memory
    s.indexAddr (s.regBlock x))).advance with V := V' }) hin
  refine ⟨_, e, fun r hr => (hW r).trans ?_⟩
  rw [if_pos hr]
  exact read_writeBytes_regBlock s s.memory s.indexAddr hr

/-! ### Accesses that pass memory -/

theorem exec_halts_of_addressOutOfRange {s : State} {i : Instr} {w : Word}
    (h : exec i s = .next (s.raise (.addressOutOfRange (max s.indexAddr 0x1000)) w)) :
    ∃ t, exec i s = .next t ∧
      Halts s t (.addressOutOfRange (if s.I.toNat ≤ 0x1000 then 0x1000 else s.I.toNat)) w :=
  ⟨_, h, by rw [← max_def]; rfl⟩

/-- Settles O45: the other answer of the four instructions is `State.raise`, at the first byte that the
access misses. -/
theorem dataAccessAboveMemoryHalts : Obligations.DataAccessAboveMemoryHalts := by
  intro s x y n
  have hI : s.indexAddr = s.I.toNat := rfl
  refine ⟨fun hn hend => ?_, fun hend => ?_, fun hend => ?_, fun hend => ?_⟩ <;>
    refine exec_halts_of_addressOutOfRange ?_
  · rcases execDrwVxVyN_cases x y n s with ⟨-, -, e⟩ | ⟨hin, -⟩
    · exact e
    · omega
  · rcases execLdBVx_cases x s with ⟨-, e⟩ | ⟨hin, -⟩
    · exact e
    · omega
  · rcases execLdMemVx_cases x s with ⟨-, e⟩ | ⟨hin, -⟩
    · exact e
    · omega
  · rcases execLdVxMem_cases x s with ⟨-, e⟩ | ⟨hin, -⟩
    · exact e
    · omega

/-! ### A store right behind itself -/

theorem ticked_eq_self {s : State} (hsched : s.schedule = []) : Ticked s = s := by
  rw [Ticked, hsched, List.tail_nil, ← hsched]

/-- The word of `V0`, `V1` stands where `LD [I],V1` stored them. -/
theorem wordAt_stored (s : State) :
    wordAt (s.setMemory (Memory.writeBytes s.memory s.indexAddr (s.regBlock 1))) s.indexAddr =
      wordOfBytes (s.v 0) (s.v 1) :=
  congrArg₂ wordOfBytes (read_writeBytes_regBlock s s.memory s.indexAddr (x := 1) (r := 0) (by decide))
    (read_writeBytes_regBlock s s.memory s.indexAddr (x := 1) (r := 1) (by decide))

/-- Settles O47: the store leaves `PC` at the first byte it stored, so that the next fetch reads the word
it stored. -/
theorem storedInstructionRunsNext : Obligations.StoredInstructionRunsNext := by
  intro s t i hexec hsched hpc hI hi h
  have hnext : (s.PC + 2).toNat = s.PC.toNat + 2 := toNat_add_two_of_fetched (by omega)
  have hindex : s.indexAddr = (s.PC + 2).toNat := congrArg BitVec.toNat hI
  cases (exec_ldMemVx (by rw [hindex, hnext]; exact hpc)).symm.trans h
  have hword := wordAt_stored s
  generalize Memory.writeBytes s.memory s.indexAddr (s.regBlock 1) = m at hword ⊢
  rw [hindex] at hword
  have hfetched : (s.setMemory m).advance.PC.toNat ≤ 0xFFE := by
    change (s.PC + 2).toNat ≤ 0xFFE
    omega
  have hstep := step_eq_exec (s := (s.setMemory m).advance) (.inl hsched) hexec hfetched
    ((congrArg decodeWord hword).trans hi)
  rwa [ticked_eq_self (s := (s.setMemory m).advance) hsched] at hstep

end Sys2Proof.Machine
end

section
/-! PROOFS. The key events, the messages and the values of reset (spec/60_exceptions R214 to R219, R233,
R234; spec/10_state R44; spec/70_reset_and_hazards R260, R267). -/

namespace Sys2Proof.Machine

open Sys2Proof.Claims

/-! ### Key events -/

theorem getElem_set_key (keys : Vector Bool 16) (k j : Key) (b : Bool) :
    (keys.set k b)[j] = if j = k then b else keys[j] := by
  simp only [Fin.getElem_fin, Vector.getElem_set, Fin.ext_iff, eq_comm]

/-- Settles O49: a key event is one write of its flag and one of `last_key`, in every condition. -/
theorem keyEventsSetTheirFlag : Obligations.KeyEventsSetTheirFlag := fun s k _ =>
  ⟨fun hsched => ⟨_, step_eq_occur hsched, fun j => getElem_set_key s.keysDown k j true, rfl, rfl⟩,
    fun hsched => ⟨_, step_eq_occur hsched, fun j => getElem_set_key s.keysDown k j false, rfl, rfl⟩⟩

/-! ### Memory after a reset under a font -/

theorem Memory.initialUnder_of_lt (font : Font) {a : Nat} (h : a < 80) :
    Memory.initialUnder font a = font[a] := by
  rw [Memory.initialUnder, Vector.getElem?_eq_getElem h, Option.getD_some]

theorem Memory.initialUnder_of_ge (font : Font) {a : Nat} (h : 80 ≤ a) :
    Memory.initialUnder font a = 0 := by
  rw [Memory.initialUnder, Vector.getElem?_eq_none h, Option.getD_none]

theorem State.memoryAt_resetUnder_of_lt (font : Font) (a : Nat) (h : a < 80) :
    (State.resetUnder font).memoryAt a = font[a] :=
  (State.read_resetUnder font a).trans (Memory.initialUnder_of_lt font h)

theorem State.memoryAt_resetUnder_of_ge (font : Font) (a : Nat) (h : 80 ≤ a) :
    (State.resetUnder font).memoryAt a = 0 :=
  (State.read_resetUnder font a).trans (Memory.initialUnder_of_ge font h)

/-- Settles O51: under the model's font a reset lists no byte, and under another the memory alone
differs. -/
theorem resetMessageResets : Obligations.ResetMessageResets := fun s =>
  ⟨s.process_reset_eq, fun font => ⟨State.memoryAt_resetUnder_of_lt font,
    State.memoryAt_resetUnder_of_ge font, rfl⟩⟩

/-- Settles O59: the fields are read off `State.reset`, its memory through the font, glyphs below 80 and
0 above. -/
theorem resetValues : Obligations.ResetValues :=
  ⟨fun r => Vector.getElem_replicate r.isLt, rfl, rfl, rfl, fun k => Vector.getElem_replicate k.isLt,
    rfl, rfl, fun _ h => Memory.initialUnder_of_lt Params.font h,
    fun _ h => Memory.initialUnder_of_ge Params.font h, State.resetUnder_font,
    fun font => ⟨State.memoryAt_resetUnder_of_lt font, State.memoryAt_resetUnder_of_ge font, rfl⟩,
    fun _ => rfl, rfl, fun k => Vector.getElem_replicate k.isLt, rfl, rfl, rfl, rfl, rfl⟩

/-! ### Messages -/

/-- Settles O52: the bytes accepted are one run of stores from 0x200 on. -/
theorem loadRomWritesItsBytes : Obligations.LoadRomWritesItsBytes := by
  intro s bytes hlen
  rw [s.process_loadROM_of_fits (Nat.lt_succ_of_le hlen)]
  exact ⟨fun k hk => Memory.read_writeBytes_at s.memory 0x200 k bytes hk,
    fun a ha => Memory.read_writeBytes_outside s.memory ha, rfl⟩

/-- What every message leaves alone, and its one report. -/
theorem State.process_kept (s : State) (m : Message) :
    (s.process m).msgQueue = s.msgQueue ∧ (s.process m).schedule = s.schedule ∧
      (s.process m).reports.length = s.reports.length + 1 := by
  cases m with
  | reset => exact ⟨rfl, rfl, List.length_append⟩
  | setRunning | setPaused => exact ⟨rfl, rfl, List.length_append⟩
  | loadROM bytes =>
    rcases Nat.lt_or_ge bytes.length 0xE00 with hfits | hlarge
    · rw [s.process_loadROM_of_fits hfits]; exact ⟨rfl, rfl, List.length_append⟩
    · rw [s.process_loadROM_of_tooLarge hlarge]; exact ⟨rfl, rfl, List.length_append⟩

theorem foldl_process_kept (ms : List Message) : ∀ s : State,
    (ms.foldl State.process s).msgQueue = s.msgQueue ∧
      (ms.foldl State.process s).schedule = s.schedule ∧
      (ms.foldl State.process s).reports.length = s.reports.length + ms.length := by
  induction ms with
  | nil => exact fun _ => ⟨rfl, rfl, rfl⟩
  | cons m ms ih =>
    intro s
    obtain ⟨hq, hsched, hreports⟩ := ih (s.process m)
    obtain ⟨hq', hsched', hreports'⟩ := s.process_kept m
    refine ⟨hq.trans hq', hsched.trans hsched', hreports.trans ?_⟩
    rw [hreports', List.length_cons]
    omega

/-- Settles O54: a drain is a fold of `State.process` over the queue, from the state whose queue has been
emptied. -/
theorem drainProcessesEveryMessage : Obligations.DrainProcessesEveryMessage := by
  refine ⟨fun s m rest hsched => step_eq_occur hsched, fun s rest hsched => ?_, fun s => rfl,
    fun s ms m => List.foldl_append⟩
  obtain ⟨hq, hs, hreports⟩ :=
    foldl_process_kept s.msgQueue { s with schedule := rest, msgQueue := [] }
  exact ⟨_, step_eq_occur hsched, rfl, hq, hs, hreports⟩

/-! ### The boot (R267) -/

/-- The state after the boot: running, with the bytes stored. -/
def booted (bytes : List Byte) : State :=
  { State.reset with
    runState := .running
    memory := Memory.writeBytes State.reset.memory 0x200 bytes
    reports := [.success, .success] }

theorem run_boot {bytes : List Byte} (hlen : bytes.length ≤ 0xDFF) :
    core.run 3 { State.reset with
      schedule := [.outside (.send (.loadROM bytes)), .outside (.send .setRunning),
        .outside .drain] } = .next (booted bytes) := by
  change Host.Outcome.next (State.process (State.process State.reset (.loadROM bytes)) .setRunning) = _
  rw [State.process_loadROM_of_fits _ (Nat.lt_succ_of_le hlen)]
  rfl

/-- Settles O55: two sends and the drain of both lead to `booted`, whose memory is one run of stores. -/
theorem bootFromReset : Obligations.BootFromReset := fun bytes hlen =>
  ⟨booted bytes, run_boot hlen, ⟨rfl, rfl, rfl⟩, rfl, rfl,
    fun k hk => Memory.read_writeBytes_at State.reset.memory 0x200 k bytes hk,
    fun _ ha => Memory.read_writeBytes_outside State.reset.memory ha, rfl⟩

end Sys2Proof.Machine
end
